-- ==== Sys2Proof/Word.lean ====
section
/-! DEFINITION. The bit patterns of the block: bus, cell, command word and register code widths (spec/00_scope.md R6, R7). -/

namespace Sys2Proof

/-- One cell of the store: `CELL_BITS` = 8 (R6, R21). -/
abbrev Byte := BitVec 8

/-- A position, a write value or a read result: `ADDR_BITS` = `VALUE_BITS` = 32 (R6). -/
abbrev Bus := BitVec 32

/-- A command word: `CMD_BITS` = 16 (R6, R82). -/
abbrev CmdWord := BitVec 16

/-- A register code, the catalog ordinal: `REG_BITS` = 5, all of 0..31 (R6, R26). -/
abbrev RegCode := BitVec 5

/-- The `status` output: `STATUS_BITS` = 3 (R6, R88). -/
abbrev StatusCode := BitVec 3

end Sys2Proof
end

