-- ==== Sys2Proof/Syntax.lean ====
section
/-! DEFINITION. The commands of the block, whole: one constructor per row of spec/opcode_table.json, with the request that carries a command (spec/30_encoding.md R81, R82) and the names a command speaks of (spec/10_state.md R25, spec/20_memory.md R58). -/

namespace Sys2Proof

/-- The operation size, "a two-valued tag {Byte, Word}" (R58, R83). -/
inductive Size where
  | byte
  | word
deriving DecidableEq, Repr

/-- The Register Catalog: a closed enumeration of 19 identifiers, in the spec's order (R25). -/
inductive RegId where
  | al | bl | cl | dl | ah | bh | ch | dh
  | ax | bx | cx | dx
  | eax | ebx | ecx | edx
  | esp | ebp
  | unknown
deriving DecidableEq, Repr

/-- The eleven commands (R82), each with the operands its row uses. An operand has exactly the width of the field or bus that
carries it, so every term is well formed (R84 to R86, R90); operands that a command ignores are not part of it. -/
inductive Instr where
  /-- `ADDROF r` (R110). -/
  | addrof (r : RegCode)
  /-- `SIZEOF r` (R140). -/
  | sizeof (r : RegCode)
  /-- `RD.B p` (R120). -/
  | rdB (p : Bus)
  /-- `RD.W p` (R121). -/
  | rdW (p : Bus)
  /-- `WR.B p, v` (R122). -/
  | wrB (p v : Bus)
  /-- `WR.W p, v` (R123). -/
  | wrW (p v : Bus)
  /-- `RDREG r` (R150). -/
  | rdreg (r : RegCode)
  /-- `WRREG r, v` (R151). -/
  | wrreg (r : RegCode) (v : Bus)
  /-- `HFIND n` (R160). -/
  | hfind (n : Bus)
  /-- `HALLOC n` (R161). -/
  | halloc (n : Bus)
  /-- `HFREE a` (R162). -/
  | hfree (a : Bus)
deriving DecidableEq, Repr

/-- A request: the triple `(cmd[15:0], addr[31:0], wdata[31:0])` (R14, R81). -/
structure Request where
  cmd   : CmdWord
  addr  : Bus
  wdata : Bus
deriving DecidableEq, Repr

/-- The five fields of a command word, `cmd` bits 15:12, 11:9, 8, 7:5 and 4:0 (R82, first table). -/
structure CmdFields where
  op  : BitVec 4
  z1  : BitVec 3
  sz  : BitVec 1
  z0  : BitVec 3
  reg : RegCode
deriving DecidableEq, Repr

end Sys2Proof
end

