-- ==== Sys2Proof/WellFormed.lean ====
section
/-! DEFINITION. Which command words are legal, field by field: the five clauses of spec/30_encoding.md R89. An `Instr` has no ill-formed terms (its operands have their buses' widths, and R90 admits every register code), so the checks are on the fields of a command word. -/

namespace Sys2Proof

/-- `op` is one that R82 gives a row: not `0x0`, `0x7`, `0xB` to `0xF` (R89). -/
def CmdFields.opDefined (f : CmdFields) : Bool :=
  f.op != 0x0#4 && f.op != 0x7#4 && f.op != 0xB#4 && f.op != 0xC#4 && f.op != 0xD#4 && f.op != 0xE#4 && f.op != 0xF#4

/-- The reserved field `z1` is `000` (R82, R89). -/
def CmdFields.z1Zero (f : CmdFields) : Bool := f.z1 == 0#3

/-- The reserved field `z0` is `000` (R82, R89). -/
def CmdFields.z0Zero (f : CmdFields) : Bool := f.z0 == 0#3

/-- `sz` = 1 only where the command takes a size, `op` `0x3` and `0x4` (R89). -/
def CmdFields.sizeAllowed (f : CmdFields) : Bool := f.sz == 0#1 || f.op == 0x3#4 || f.op == 0x4#4

/-- `reg` is `00000` in the commands that take no register, `op` `0x3`, `0x4`, `0x8`, `0x9`, `0xA` (R89). -/
def CmdFields.regAllowed (f : CmdFields) : Bool :=
  f.reg == 0#5 || !(f.op == 0x3#4 || f.op == 0x4#4 || f.op == 0x8#4 || f.op == 0x9#4 || f.op == 0xA#4)

/-- A command word's fields are well formed when none of R89's clauses makes the word illegal. -/
def CmdFields.wellFormed (f : CmdFields) : Bool :=
  f.opDefined && f.z1Zero && f.z0Zero && f.sizeAllowed && f.regAllowed

end Sys2Proof
end

