-- ==== Sys2Proof/Decode.lean ====
section
/-! DEFINITION. Decoding a request into a command, total, the words that match no row rejected by the name `illegal` (spec/30_encoding.md R82, R89, R91), and after it the encoder, written from the bit patterns of the same table. -/

namespace Sys2Proof

/-- `cmd[4:0]`, the `reg` field (R82, R84). -/
def regField (w : CmdWord) : RegCode := w.extractLsb' 0 5

/-- The five fields of a command word (R82, first table). -/
def cmdFields (w : CmdWord) : CmdFields where
  op  := w.extractLsb' 12 4
  z1  := w.extractLsb' 9 3
  sz  := w.extractLsb' 8 1
  z0  := w.extractLsb' 5 3
  reg := regField w

/-- One row of the command table: the words `w` with `w AND mask = pattern` select the command that `build` makes from the `reg`
field and the `addr` and `wdata` buses (R82). -/
structure CommandRow where
  pattern : CmdWord
  mask    : CmdWord
  build   : RegCode → Bus → Bus → Instr

/-- `w` selects this row's command (R82). -/
def CommandRow.selects (row : CommandRow) (w : CmdWord) : Bool := w &&& row.mask == row.pattern

/-- The eleven rows of R82, columns `match` and `mask`, in the table's order. -/
def commandTable : List CommandRow := [
  ⟨0x1000#16, 0xFFE0#16, fun r _ _ => .addrof r⟩,
  ⟨0x2000#16, 0xFFE0#16, fun r _ _ => .sizeof r⟩,
  ⟨0x3000#16, 0xFFFF#16, fun _ p _ => .rdB p⟩,
  ⟨0x3100#16, 0xFFFF#16, fun _ p _ => .rdW p⟩,
  ⟨0x4000#16, 0xFFFF#16, fun _ p v => .wrB p v⟩,
  ⟨0x4100#16, 0xFFFF#16, fun _ p v => .wrW p v⟩,
  ⟨0x5000#16, 0xFFE0#16, fun r _ _ => .rdreg r⟩,
  ⟨0x6000#16, 0xFFE0#16, fun r _ v => .wrreg r v⟩,
  ⟨0x8000#16, 0xFFFF#16, fun _ n _ => .hfind n⟩,
  ⟨0x9000#16, 0xFFFF#16, fun _ n _ => .halloc n⟩,
  ⟨0xA000#16, 0xFFFF#16, fun _ a _ => .hfree a⟩]

/-- What a request decodes to: a command, or `ILLEGAL` (R91). -/
inductive Decoded where
  | command (i : Instr)
  | illegal
deriving DecidableEq, Repr

/-- `Decode`: the row that the command word selects, with the operands its command uses; `illegal` where there is none
(R91). Which row it is depends on `cmd` alone (R92). -/
def decode : Request → Decoded
  | ⟨cmd, addr, wdata⟩ =>
    match commandTable.find? (fun row => row.selects cmd) with
    | some row => .command (row.build (regField cmd) addr wdata)
    | none => .illegal

/-- A request read from one number: `cmd` in bits 15..0, `addr` in bits 47..16, `wdata` in bits 79..48. DESIGN CHOICE, safe
(log entry 10): the spec carries the three on separate buses. -/
def requestOfBits (w : BitVec 80) : Request where
  cmd   := w.extractLsb' 0 16
  addr  := w.extractLsb' 16 32
  wdata := w.extractLsb' 48 32

/-- The same for a number of `nbits` bits, every bit above them 0. -/
def requestOfNat (nbits w : Nat) : Request := requestOfBits (BitVec.ofNat 80 (w % 2 ^ nbits))

/-- The command the decoder reads from the low `nbits` bits of `w`, the buses above them 0; `none` where it is illegal. -/
def decodeTableWord (nbits w : Nat) : Option Instr :=
  match decode (requestOfNat nbits w) with
  | .command i => some i
  | .illegal => none

/-- A command word put together from its fields (R82, first table). -/
def fieldsWord (f : CmdFields) : CmdWord := f.op ++ f.z1 ++ f.sz ++ f.z0 ++ f.reg

/-- The command word's fields for each command, from the column `cmd` bits 15..0 of R82. -/
def instrFields : Instr → CmdFields
  | .addrof r  => ⟨0x1#4, 0#3, 0#1, 0#3, r⟩
  | .sizeof r  => ⟨0x2#4, 0#3, 0#1, 0#3, r⟩
  | .rdB _     => ⟨0x3#4, 0#3, 0#1, 0#3, 0#5⟩
  | .rdW _     => ⟨0x3#4, 0#3, 1#1, 0#3, 0#5⟩
  | .wrB _ _   => ⟨0x4#4, 0#3, 0#1, 0#3, 0#5⟩
  | .wrW _ _   => ⟨0x4#4, 0#3, 1#1, 0#3, 0#5⟩
  | .rdreg r   => ⟨0x5#4, 0#3, 0#1, 0#3, r⟩
  | .wrreg r _ => ⟨0x6#4, 0#3, 0#1, 0#3, r⟩
  | .hfind _   => ⟨0x8#4, 0#3, 0#1, 0#3, 0#5⟩
  | .halloc _  => ⟨0x9#4, 0#3, 0#1, 0#3, 0#5⟩
  | .hfree _   => ⟨0xA#4, 0#3, 0#1, 0#3, 0#5⟩

/-- What a command carries on `addr`; an unused bus is written as 0 (R85, R93). -/
def instrAddr : Instr → Bus
  | .addrof _ | .sizeof _ | .rdreg _ | .wrreg _ _ => 0
  | .rdB p | .rdW p | .wrB p _ | .wrW p _ => p
  | .hfind n | .halloc n | .hfree n => n

/-- What a command carries on `wdata`; an unused bus is written as 0 (R86, R93). -/
def instrData : Instr → Bus
  | .wrB _ v | .wrW _ v | .wrreg _ v => v
  | .addrof _ | .sizeof _ | .rdB _ | .rdW _ | .rdreg _ | .hfind _ | .halloc _ | .hfree _ => 0

/-- The wire form of a command (R82, R93). -/
def encode (i : Instr) : Request where
  cmd   := fieldsWord (instrFields i)
  addr  := instrAddr i
  wdata := instrData i

/-- A request as one number, laid out as `requestOfBits` reads it. -/
def requestBits (q : Request) : BitVec 80 := q.wdata ++ q.addr ++ q.cmd

end Sys2Proof
end

