-- ==== Sys2Proof/Config.lean ====
section
/-! DEFINITION. The implementation parameters of spec/00_scope.md R6 that are not a bit width. None is left open by the spec, and the block has no free value. -/

namespace Sys2Proof

/-- `MEM_SIZE`, the number of cells: "exactly 4096 bytes", immutable (R6, R21, R22). -/
def Config.memSize : Nat := 4096

end Sys2Proof
end

