-- ==== Sys2Proof/Machine/State.lean ====
section
/-! DEFINITION. The state of the block (spec/10_state.md R20: the store `M` alone) with the ports around it as plain data, what a step may answer, and the state after reset (spec/70_reset_and_hazards.md R200). -/

namespace Sys2Proof.Machine

/-- The store `M`, sparse: the cells whose value differs from `unlistedByte`, in rising order of position (R20, R21). -/
abbrev Memory := List Host.Cell

/-- What a cell not listed holds: the reset value of every cell, 0 (R24). -/
def unlistedByte : Byte := 0

/-- The canonical form of the store: positions strictly rising, all in `[0, 4096)` (R22), no entry equal to `unlistedByte`. -/
def Memory.wf : Memory → Bool
  | [] => true
  | c :: m => c.2 != unlistedByte && decide (c.1 < Config.memSize) && m.all (fun d => decide (c.1 < d.1)) && Memory.wf m

/-- The four failure kinds of a command (R170). Each is an answer to the caller and no stop of the block (R179, R180). -/
inductive FailureKind where
  /-- Status 1: a register code that names no register (R171). -/
  | unknownRegister
  /-- Status 2: a raw access outside the store (R172). -/
  | outOfBounds
  /-- Status 3: any heap command (R173). -/
  | unimplementedOperation
  /-- Status 4: a command word that matches no row (R174). -/
  | illegalCommand
deriving DecidableEq, Repr

/-- A response: "either a failure kind or a 32-bit value" (R87). -/
inductive Response where
  | ok (v : Bus)
  | fail (k : FailureKind)
deriving DecidableEq, Repr

/-- What the caller presents on the input ports `rst`, `req_valid` and `cmd`, `addr`, `wdata` at one time (R81). -/
structure PortIn where
  rst      : Bool
  reqValid : Bool
  req      : Request
deriving DecidableEq, Repr

/-- The block and the run around it. `mem` is the block's one piece of state (R20). `inputs` and `responses` are the model's own
(log entries 1 and 3). -/
structure State where
  /-- The store `M` (R21). -/
  mem       : Memory
  /-- What the caller presents, in its order: the head is on the input ports now (R81, R207). DESIGN CHOICE, safe. -/
  inputs    : List PortIn
  /-- Every response given, in command order (R81, R206, R207). DESIGN CHOICE, unsafe for claims about the ports after `rst`. -/
  responses : List Response
deriving DecidableEq, Repr

/-- Reasons for the host's `fault` outcome. There is none: the block never stops and every request has a defined response (R91,
R180, R207). Safe (log entry 9). -/
inductive Fault where
deriving DecidableEq, Repr

/-- Reasons for the host's `refused` outcome. -/
inductive Refusal where
  /-- Raised by an arm of `exec` that has no meaning yet; no arm raises it now. Safe. -/
  | notModelled (mnemonic : String)
deriving DecidableEq, Repr

/-- The block right after reset: every cell 0 (R24, R44, R200), no request presented and no response given (DESIGN CHOICE, log
entries 1 and 3). -/
def State.reset : State where
  mem       := []
  inputs    := []
  responses := []

end Sys2Proof.Machine
end

