-- ==== Sys2Proof/Machine/Operands.lean ====
section
/-! DEFINITION. The two operand forms of the block: a register code, through the Register Address Table and the size classifier (spec/10_state.md R25 to R31), and a position (spec/00_scope.md R10, spec/30_encoding.md R85). -/

namespace Sys2Proof.Machine

/-- The catalog identifier with this code; codes 19..31 name none (R26). -/
def regIdOf (r : RegCode) : Option RegId :=
  match r.toNat with
  | 0 => some .al
  | 1 => some .bl
  | 2 => some .cl
  | 3 => some .dl
  | 4 => some .ah
  | 5 => some .bh
  | 6 => some .ch
  | 7 => some .dh
  | 8 => some .ax
  | 9 => some .bx
  | 10 => some .cx
  | 11 => some .dx
  | 12 => some .eax
  | 13 => some .ebx
  | 14 => some .ecx
  | 15 => some .edx
  | 16 => some .esp
  | 17 => some .ebp
  | 18 => some .unknown
  | _ => none

/-- One row of the Register Address Table: identifier, offset, access width (R15, R27). -/
structure AddressEntry where
  id     : RegId
  offset : Nat
  width  : Size
deriving DecidableEq, Repr

/-- The literal table, "which any reimplementation must reproduce exactly" (R27). `Unknown` has no usable entry (R29). -/
def addressTable : List AddressEntry := [
  ⟨.al, 3, .byte⟩, ⟨.bl, 7, .byte⟩, ⟨.cl, 11, .byte⟩, ⟨.dl, 15, .byte⟩,
  ⟨.ah, 2, .byte⟩, ⟨.bh, 6, .byte⟩, ⟨.ch, 10, .byte⟩, ⟨.dh, 14, .byte⟩,
  ⟨.ax, 0, .word⟩, ⟨.bx, 4, .word⟩, ⟨.cx, 8, .word⟩, ⟨.dx, 12, .word⟩,
  ⟨.eax, 0, .byte⟩, ⟨.ebx, 4, .byte⟩, ⟨.ecx, 8, .byte⟩, ⟨.edx, 12, .byte⟩,
  ⟨.esp, 16, .byte⟩, ⟨.ebp, 20, .byte⟩]

/-- The table's row for an identifier; `Unknown` has none, so no sentinel number exists (R29). -/
def entryOf (x : RegId) : Option AddressEntry := addressTable.find? (fun e => e.id == x)

/-- `AddrOf(r)`: `Offset(r)` for codes 0..17, `none` where the lookup raises `UnknownRegister` (R12, R29, R30, R110). -/
def addrOf (r : RegCode) : Option Nat :=
  match regIdOf r with
  | some x => (entryOf x).map AddressEntry.offset
  | none => none

/-- `SizeOf(r)`, total: Word for ordinals 8..11, Byte for every other by the literal fallthrough (R31). -/
def sizeOfReg (r : RegCode) : Size := if 8 ≤ r.toNat ∧ r.toNat ≤ 11 then .word else .byte

/-- The size tag as `SIZEOF` returns it: 0 = Byte, 1 = Word (R83, R140). -/
def sizeTag : Size → Bus
  | .byte => 0
  | .word => 1

/-- `InRange(p, n)`: `p[31:12] = 0` and, for a Word, `p[11:0] != 0xFFF`; `p + 1` is never computed modulo anything (R10, R51). -/
def inRange (p : Bus) (sz : Size) : Bool :=
  p.extractLsb' 12 20 == 0#20 &&
    match sz with
    | .byte => true
    | .word => p.extractLsb' 0 12 != 0xFFF#12

/-- `v[7:0]` (R8, R86). -/
def lowByte (v : Bus) : Byte := v.extractLsb' 0 8

/-- `v[15:8]` (R8, R86). -/
def highByte (v : Bus) : Byte := v.extractLsb' 8 8

/-- `sext_32` of a Byte (R8). -/
def sextByte (b : Byte) : Bus := b.signExtend 32

/-- `sext_32` of the Word whose high byte is `h` and low byte `l`: the two patterns are put side by side first (R55). -/
def sextWord (h l : Byte) : Bus := (h ++ l).signExtend 32

end Sys2Proof.Machine
end

