-- ==== Sys2Proof/Machine/Ops.lean ====
section
/-! DEFINITION. The shared operations: cells of the store (spec/20_memory.md), the response that ends a command, taking a failure (spec/60_exceptions.md R178, R179), and the two kinds of access built on them. -/

namespace Sys2Proof.Machine

/-- `M[p]` (R9). -/
def Memory.read : Memory → Nat → Byte
  | [], _ => unlistedByte
  | c :: m, a => if c.1 = a then c.2 else Memory.read m a

/-- The store without an entry for position `a`. -/
def Memory.without (m : Memory) (a : Nat) : Memory := m.filter (fun c => c.1 != a)

/-- The store with the entry `(a, b)` put before the first greater position. -/
def Memory.place : Memory → Nat → Byte → Memory
  | [], a, b => [(a, b)]
  | c :: m, a, b => if a < c.1 then (a, b) :: c :: m else c :: Memory.place m a b

/-- `M[a] <- b` (R9), keeping the canonical form. -/
def Memory.write (m : Memory) (a : Nat) (b : Byte) : Memory :=
  if b = unlistedByte then m.without a else (m.without a).place a b

/-- One byte lane of the write path: its enable, the cell it addresses and what drives it (R61). -/
structure Lane where
  enable : Bool
  cell   : Nat
  data   : Byte
deriving DecidableEq, Repr

/-- Lane H: always enabled by a write; `v[7:0]` for a Byte, `v[15:8]` for a Word (R61). -/
def laneH (p : Nat) (sz : Size) (v : Bus) : Lane where
  enable := true
  cell   := p
  data   := match sz with
    | .byte => lowByte v
    | .word => highByte v

/-- Lane L, addressed by `p + 1`: enabled by a Word write, driven with `v[7:0]` (R61). -/
def laneL (p : Nat) (sz : Size) (v : Bus) : Lane where
  enable := sz == .word
  cell   := p + 1
  data   := lowByte v

/-- What one lane does to the store. -/
def Memory.drive (m : Memory) (l : Lane) : Memory := if l.enable then m.write l.cell l.data else m

/-- `MemWrite(p, n, v)`: both lanes, as one operation (R11, R53, R60, R61). -/
def Memory.store (m : Memory) (p : Nat) (sz : Size) (v : Bus) : Memory := (m.drive (laneH p sz v)).drive (laneL p sz v)

/-- `sext_32(MemRead(p, n))`, the result of the read path (R11, R53, R55, R61). -/
def Memory.load (m : Memory) (p : Nat) : Size → Bus
  | .byte => sextByte (m.read p)
  | .word => sextWord (m.read p) (m.read (p + 1))

/-- Ends a command with a response (R13, R81). -/
def State.respond (s : State) (r : Response) : State := { s with responses := s.responses ++ [r] }

/-- `return v`: the command completes, status `OK` (R13, R87). -/
def State.complete (s : State) (v : Bus) : State := s.respond (.ok v)

/-- `raise K`, TAKING A FAILURE: the response carries the kind, nothing is saved, no cell and no mode changes (R13, R175, R178,
R179). There is no return from a failure and nothing to clear: the next command runs as after a success (R180). -/
def State.raise (s : State) (k : FailureKind) : State := s.respond (.fail k)

/-- The read of `n` cells at a position known to be in the store (R11). -/
def State.readAt (s : State) (p : Nat) (sz : Size) : State := s.complete (s.mem.load p sz)

/-- The write of `n` cells at a position known to be in the store; the response is `OK` with 0 (R11, R87). -/
def State.writeAt (s : State) (p : Nat) (sz : Size) (v : Bus) : State :=
  State.complete { s with mem := s.mem.store p sz v } 0

/-- Raw read: the range test, then the read (R120, R121). -/
def State.rawRead (s : State) (p : Bus) (sz : Size) : State :=
  if inRange p sz then s.readAt p.toNat sz else s.raise .outOfBounds

/-- Raw write: the range test before any write (R122, R123, R178). -/
def State.rawWrite (s : State) (p : Bus) (sz : Size) (v : Bus) : State :=
  if inRange p sz then s.writeAt p.toNat sz v else s.raise .outOfBounds

/-- `x[r]`: the table's offset and the classifier's size, then the read (R12, R150). -/
def State.regRead (s : State) (r : RegCode) : State :=
  match addrOf r with
  | some a => s.readAt a (sizeOfReg r)
  | none => s.raise .unknownRegister

/-- `x[r] <- v` (R12, R151). -/
def State.regWrite (s : State) (r : RegCode) (v : Bus) : State :=
  match addrOf r with
  | some a => s.writeAt a (sizeOfReg r) v
  | none => s.raise .unknownRegister

/-- `rst`: every cell takes its reset value; no response is owed (R200). What the caller still presents and the responses it has
had are no contents of the block and stay (log entry 3). -/
def State.resetBlock (s : State) : State := { s with mem := State.reset.mem }

end Sys2Proof.Machine
end

