-- ==== Sys2Proof/Machine/FlatStore.lean ====
section
/-! DEFINITION. The Flat Memory Store commands RD.B, RD.W, WR.B, WR.W (spec/41_flat_store.md). -/

namespace Sys2Proof.Machine

/-- `RD.B p` (R120). -/
def execRdB (p : Bus) (s : State) : Host.Outcome State Fault Refusal := .next (s.rawRead p .byte)

/-- `RD.W p` (R121). -/
def execRdW (p : Bus) (s : State) : Host.Outcome State Fault Refusal := .next (s.rawRead p .word)

/-- `WR.B p, v` (R122). -/
def execWrB (p v : Bus) (s : State) : Host.Outcome State Fault Refusal := .next (s.rawWrite p .byte v)

/-- `WR.W p, v` (R123). -/
def execWrW (p v : Bus) (s : State) : Host.Outcome State Fault Refusal := .next (s.rawWrite p .word v)

end Sys2Proof.Machine
end

