-- ==== Sys2Proof/Machine/HeapContract.lean ====
section
/-! DEFINITION. The Heap Allocation Contract stubs HFIND, HALLOC, HFREE (spec/44_heap_contract.md): no allocator, no state (R163). -/

namespace Sys2Proof.Machine

/-- `HFIND n`: always `UnimplementedOperation`, `n` not examined (R160). -/
def execHfind (_n : Bus) (s : State) : Host.Outcome State Fault Refusal := .next (s.raise .unimplementedOperation)

/-- `HALLOC n`: always `UnimplementedOperation`, `n` not examined (R161). -/
def execHalloc (_n : Bus) (s : State) : Host.Outcome State Fault Refusal := .next (s.raise .unimplementedOperation)

/-- `HFREE a`: always `UnimplementedOperation`, `a` not examined (R162). -/
def execHfree (_a : Bus) (s : State) : Host.Outcome State Fault Refusal := .next (s.raise .unimplementedOperation)

end Sys2Proof.Machine
end

