-- ==== Sys2Proof/Machine/RegisterAccess.lean ====
section
/-! DEFINITION. Register-addressed access RDREG, WRREG (spec/43_register_access.md). -/

namespace Sys2Proof.Machine

/-- `RDREG r` (R150). -/
def execRdreg (r : RegCode) (s : State) : Host.Outcome State Fault Refusal := .next (s.regRead r)

/-- `WRREG r, v` (R151). -/
def execWrreg (r : RegCode) (v : Bus) (s : State) : Host.Outcome State Fault Refusal := .next (s.regWrite r v)

end Sys2Proof.Machine
end

