-- ==== Sys2Proof/Machine/RegisterAddressTable.lean ====
section
/-! DEFINITION. The Register Address Table command ADDROF (spec/40_register_address_table.md). -/

namespace Sys2Proof.Machine

/-- `ADDROF r`: `zext_32(Offset(r))`, or `UnknownRegister` for codes 18..31 (R110, R112). -/
def execAddrof (r : RegCode) (s : State) : Host.Outcome State Fault Refusal :=
  match addrOf r with
  | some a => .next (s.complete (BitVec.ofNat 32 a))
  | none => .next (s.raise .unknownRegister)

end Sys2Proof.Machine
end

