-- ==== Sys2Proof/Machine/SizeClassifier.lean ====
section
/-! DEFINITION. The Register Size Classifier command SIZEOF (spec/42_size_classifier.md). -/

namespace Sys2Proof.Machine

/-- `SIZEOF r`: 1 for Word, 0 for Byte; never a failure (R140). -/
def execSizeof (r : RegCode) (s : State) : Host.Outcome State Fault Refusal :=
  .next (s.complete (sizeTag (sizeOfReg r)))

end Sys2Proof.Machine
end

