-- ==== Sys2Proof/Machine/Dispatch.lean ====
section
/-! DEFINITION. The meaning of every command of spec/opcode_table.json, one arm each. -/

namespace Sys2Proof.Machine

/-- `Step` of R14 for a legal command: one case per row of R82. -/
def exec (i : Instr) (s : State) : Host.Outcome State Fault Refusal :=
  match i with
  | .addrof r => Sys2Proof.Machine.execAddrof r s
  | .sizeof r => Sys2Proof.Machine.execSizeof r s
  | .rdB p => Sys2Proof.Machine.execRdB p s
  | .rdW p => Sys2Proof.Machine.execRdW p s
  | .wrB p v => Sys2Proof.Machine.execWrB p v s
  | .wrW p v => Sys2Proof.Machine.execWrW p v s
  | .rdreg r => Sys2Proof.Machine.execRdreg r s
  | .wrreg r v => Sys2Proof.Machine.execWrreg r v s
  | .hfind n => Sys2Proof.Machine.execHfind n s
  | .halloc n => Sys2Proof.Machine.execHalloc n s
  | .hfree a => Sys2Proof.Machine.execHfree a s

end Sys2Proof.Machine
end

