-- ==== Sys2Proof/Machine/Port.lean ====
section
/-! DEFINITION. The command port: what the block does with one presentation of its input ports (spec/30_encoding.md R81, R89, R91; spec/70_reset_and_hazards.md R200). -/

namespace Sys2Proof.Machine

/-- `Step` of R14: decode, then the row's rule, or rule R89 for `ILLEGAL` (R91, R178). -/
def runRequest (q : Request) (s : State) : Host.Outcome State Fault Refusal :=
  match decode q with
  | .command i => exec i s
  | .illegal => .next (s.raise .illegalCommand)

/-- One presentation of the input ports. While `rst` is asserted no command is accepted (R200); with `req_valid` = 0 "the block
does nothing and holds its state" (R81). -/
def acceptInput (p : PortIn) (s : State) : Host.Outcome State Fault Refusal :=
  if p.rst then .next s.resetBlock
  else if p.reqValid then runRequest p.req s
  else .next s

/-- The caller presents a request, ahead of whatever it presents after it. -/
def State.present (s : State) (q : Request) : State :=
  { s with inputs := { rst := false, reqValid := true, req := q } :: s.inputs }

end Sys2Proof.Machine
end

