-- ==== Sys2Proof/Machine/Step.lean ====
section
/-! DEFINITION. One step of the machine: the block takes what stands on its input ports and completes it before the next (spec/30_encoding.md R81, spec/70_reset_and_hazards.md R206). -/

namespace Sys2Proof.Machine

/-- One step: the head of `inputs` is taken off the ports and answered. Where the caller presents nothing more the ports are
idle and the block holds its state (R81; DESIGN CHOICE, safe, log entry 4). -/
def step (s : State) : Host.Outcome State Fault Refusal :=
  match s.inputs with
  | [] => .next s
  | p :: rest => acceptInput p { s with inputs := rest }

/-- `s` with the request whose low `nbits` bits are those of `w` presented on the input ports, so that the next step runs it.
It stands for the caller, who alone brings commands to the block (R38, R207; log entries 2 and 10). -/
def State.withFetchWord (s : State) (nbits w : Nat) : State := s.present (requestOfNat nbits w)

end Sys2Proof.Machine
end

