-- ==== Sys2Proof/Machine/Flags.lean ====
section
/-! DEFINITION. The block has no flag or condition code (spec/10_state.md R39); what a command reports besides its result is the status of its response. Here is the wire form of a response and what the output ports show (spec/30_encoding.md R81, R87, R88). -/

namespace Sys2Proof.Machine

/-- The status code of a failure kind (R88). -/
def FailureKind.code : FailureKind → StatusCode
  | .unknownRegister        => 1
  | .outOfBounds            => 2
  | .unimplementedOperation => 3
  | .illegalCommand         => 4

/-- The `status` output for a response: 0 is `OK` (R88). -/
def Response.status : Response → StatusCode
  | .ok _   => 0
  | .fail k => k.code

/-- The `rdata` output for a response: 0 on a failure, where it carries no information (R87). -/
def Response.rdata : Response → Bus
  | .ok v   => v
  | .fail _ => 0

/-- The answer to the last accepted command (R81, `resp_valid`), if there is one. -/
def State.lastResponse (s : State) : Option Response := s.responses.getLast?

/-- The `resp_valid` port: "`status` and `rdata` answer the last accepted command" (R81; log entry 3). -/
def State.respValid (s : State) : Bool := s.lastResponse.isSome

/-- The `status` port, where `resp_valid` is 1 (R81, R88). -/
def State.status (s : State) : Option StatusCode := s.lastResponse.map Response.status

/-- The `rdata` port, where `resp_valid` is 1 (R81, R87). -/
def State.rdata (s : State) : Option Bus := s.lastResponse.map Response.rdata

end Sys2Proof.Machine
end

