-- ==== Sys2Proof/Safety.lean ====
section
/-! DEFINITION. The terms in which claims speak of the block: the store's invariant, the spec's tables of views and failures written out as the spec prints them (so that a claim does not lean on the model's own lookup), what a command stores at one cell, and runs (spec/70_reset_and_hazards.md R207). -/

namespace Sys2Proof.Machine

/-- The invariant of the store: canonical form, inside `[0, 4096)` (R22). -/
def StoreInv (s : State) : Prop := s.mem.wf = true

/-- The cells of each register's view, high byte first: the last column of R27. Codes 18..31 have none. -/
def viewCells (r : RegCode) : List Nat :=
  match r.toNat with
  | 0 => [3]
  | 1 => [7]
  | 2 => [11]
  | 3 => [15]
  | 4 => [2]
  | 5 => [6]
  | 6 => [10]
  | 7 => [14]
  | 8 => [0, 1]
  | 9 => [4, 5]
  | 10 => [8, 9]
  | 11 => [12, 13]
  | 12 => [0]
  | 13 => [4]
  | 14 => [8]
  | 15 => [12]
  | 16 => [16]
  | 17 => [20]
  | _ => []

/-- The complete result table of `ADDROF` for codes 0 to 17, by code (R111). -/
def offsetByCode : List Nat := [3, 7, 11, 15, 2, 6, 10, 14, 0, 4, 8, 12, 0, 4, 8, 12, 16, 20]

/-- `Offset(r)` of R27 for codes 0 to 17, read off the printed table; other codes have no offset, and no claim uses theirs. -/
def literalOffset (r : RegCode) : Nat := offsetByCode.getD r.toNat 0

/-- The failure a command must answer, if any: the table of R176. -/
def expectedFailure : Instr → Option FailureKind
  | .addrof r | .rdreg r | .wrreg r _ => if 18 ≤ r.toNat then some .unknownRegister else none
  | .sizeof _ => none
  | .rdB p | .wrB p _ => if 4095 < p.toNat then some .outOfBounds else none
  | .rdW p | .wrW p _ => if 4094 < p.toNat then some .outOfBounds else none
  | .hfind _ | .halloc _ | .hfree _ => some .unimplementedOperation

/-- What a raw write of `v` at `p` puts into cell `a`: `M[p] <- v[7:0]`, or `M[p] <- v[15:8]` and `M[p+1] <- v[7:0]` (R11). -/
def byteStoredAt (p : Nat) (sz : Size) (v : Bus) (a : Nat) : Option Byte :=
  match sz with
  | .byte => if a = p then some (lowByte v) else none
  | .word => if a = p then some (highByte v) else if a = p + 1 then some (lowByte v) else none

/-- What a command stores at cell `a`, if it covers that cell: the writes of R122, R123 and R151, nothing for a command that
fails (R178) and nothing for any other (R23). -/
def storedByte (i : Instr) (a : Nat) : Option Byte :=
  if (expectedFailure i).isSome then none
  else
    match i with
    | .wrB p v => byteStoredAt p.toNat .byte v a
    | .wrW p v => byteStoredAt p.toNat .word v a
    | .wrreg r v =>
      match viewCells r with
      | [c] => byteStoredAt c .byte v a
      | c :: _ => byteStoredAt c .word v a
      | [] => none
    | .addrof _ | .sizeof _ | .rdB _ | .rdW _ | .rdreg _ | .hfind _ | .halloc _ | .hfree _ => none

/-- What one presentation of the input ports puts into cell `a`: reset puts 0 (R24), a command what it stores there. -/
def coveredBy (a : Nat) (p : PortIn) : Option Byte :=
  if p.rst then some 0
  else if p.reqValid then
    match decode p.req with
    | .command i => storedByte i a
    | .illegal => none
  else none

/-- What the last of the presented inputs to cover cell `a` put there (R64). -/
def lastCovering (inputs : List PortIn) (a : Nat) : Option Byte := inputs.reverse.findSome? (coveredBy a)

/-- The block accepts a command from this presentation (R81, R200). -/
def PortIn.accepted (p : PortIn) : Bool := !p.rst && p.reqValid

/-- A run: one step for each input the caller presents (R207). -/
def State.runAll (s : State) : Host.Outcome State Fault Refusal := Host.Core.run Sys2Proof.core s.inputs.length s

/-- A response that is a failure (R15). -/
def Response.isFailure : Response → Bool
  | .ok _ => false
  | .fail _ => true

/-- The caller's sticky record holds no failure: what a safe run keeps (R180). -/
def State.failureFree (s : State) : Bool := s.responses.all (fun r => !r.isFailure)

/-- A sound run: no failure on record, and every request still to be accepted decodes to a command that the table of R176 lets
succeed. -/
def SoundRun (s : State) : Prop :=
  s.failureFree = true ∧
    ∀ p ∈ s.inputs, p.accepted = true → ∃ i, decode p.req = .command i ∧ expectedFailure i = none

end Sys2Proof.Machine
end

