-- ==== Sys2Proof/Certificates/Slice0/Obligations.lean ====
section
/-! DEFINITION. The statements for the provers. An access at position `p` uses the cell `p.toNat`, as the meanings do; a response is appended to `responses`. Where a docstring names a decision D<n> or a log entry, that clause is the spec's own choice or the model's. -/

open Sys2Proof Sys2Proof.Machine

/-! ## Reset and the port -/

/-- R24: after reset every cell is 0, there are exactly 4096 of them (a read at any other position fails), and reading a cell or a
register that nothing has written answers 0 and is no failure. -/
def Obligations.ResetLeavesEveryCellZero : Prop :=
  (∀ a : Nat, a < 4096 → State.reset.mem.read a = 0#8) ∧
  (∀ p : Bus, exec (.rdB p) State.reset = .next { State.reset with responses :=
    [if p.toNat ≤ 4095 then .ok 0#32 else .fail .outOfBounds] }) ∧
  (∀ r : RegCode, r.toNat ≤ 17 → exec (.rdreg r) State.reset = .next { State.reset with responses := [.ok 0#32] })

/-- The reset store has the canonical form of the model's memory (model's choice of representation, log entry 11). -/
def Obligations.ResetStoreIsWellFormed : Prop := StoreInv State.reset

/-- Every step, from every state, keeps the store canonical and inside `[0, 4096)`: no command grows or re-bases it
(10_state.md section 2). The canonical form is the model's representation (log entry 11). -/
def Obligations.StepKeepsTheStoreForm : Prop :=
  ∀ s t : State, StoreInv s → step s = .next t → StoreInv t

/-- Asserting `rst` clears every cell, accepts no command whatever `req_valid`, `cmd`, `addr`, `wdata` say, and gives no
response (the spec's decision D13; that earlier responses stay on record is the model's, log entry 3). -/
def Obligations.AssertingResetClearsTheStore : Prop :=
  ∀ (s : State) (p : PortIn) (rest : List PortIn), s.inputs = p :: rest → p.rst = true →
    step s = .next { s with mem := [], inputs := rest }

/-- With `req_valid` = 0 the block does nothing and holds its state (the spec's decision D2); with nothing more presented the
ports are idle (the model's choice, log entry 4). -/
def Obligations.IdlePortsHoldTheBlock : Prop :=
  (∀ (s : State) (q : Request) (rest : List PortIn), s.inputs = ⟨false, false, q⟩ :: rest →
    step s = .next { s with inputs := rest }) ∧
  (∀ s : State, s.inputs = [] → step s = .next s)

/-- A step runs the decoded command: where the ports carry a request that decodes to `i`, the step is `exec i` on the state whose
ports have moved on to the next input. -/
def Obligations.StepRunsTheDecodedCommand : Prop :=
  ∀ (s : State) (q : Request) (rest : List PortIn) (i : Instr), s.inputs = ⟨false, true, q⟩ :: rest →
    decode q = .command i → step s = exec i { s with inputs := rest }

/-- A word presented with `withFetchWord` is run by the very next step, on the state it was presented to (that the word stands for
the caller's next command is the model's choice, log entry 2, and so is the layout of a request as one number, log entry 10). -/
def Obligations.PresentedWordRunsNext : Prop :=
  ∀ (s : State) (nbits w : Nat) (i : Instr), decodeTableWord nbits w = some i → step (s.withFetchWord nbits w) = exec i s

/-! ## Decoding and encoding (the encoding is the spec's decision D3) -/

/-- A command word that breaks a clause of the legality rule is answered with `IllegalCommand`; no cell changes, and `addr`,
`wdata` do not matter (the spec's decision D9). -/
def Obligations.IllegalWordsAnswerIllegalCommand : Prop :=
  ∀ (s : State) (q : Request) (rest : List PortIn), s.inputs = ⟨false, true, q⟩ :: rest →
    (cmdFields q.cmd).wellFormed = false →
    step s = .next { s with inputs := rest, responses := s.responses ++ [.fail .illegalCommand] }

/-- The words that match no row of the command table are exactly those that break one of the clauses on `op`, `z1`, `z0`, `sz`,
`reg` (30_encoding.md section 5, decision D9). -/
def Obligations.IllegalExactlyByTheFieldClauses : Prop :=
  ∀ q : Request, decode q = .illegal ↔ (cmdFields q.cmd).wellFormed = false

/-- No command word selects two rows of the command table (30_encoding.md section 2). -/
def Obligations.CommandRowsAreDisjoint : Prop :=
  commandTable.Pairwise (fun a b => ∀ w : CmdWord, ¬ (a.selects w = true ∧ b.selects w = true))

/-- Exactly 135 of the 65536 command words are legal (30_encoding.md section 2). -/
def Obligations.LegalCommandWordsNumber135 : Prop :=
  ∃ words : List CmdWord, words.Nodup ∧ words.length = 135 ∧
    ∀ w : CmdWord, w ∈ words ↔ ∀ addr wdata : Bus, decode ⟨w, addr, wdata⟩ ≠ .illegal

/-- Decode and encode agree for every command, with every operand at every value: from the request, and from the request
written as one 80-bit number (log entry 10). -/
def Obligations.EncodedCommandsDecodeBack : Prop :=
  ∀ i : Instr, decode (encode i) = .command i ∧ decodeTableWord 80 (requestBits (encode i)).toNat = some i

/-- Every legal command has one spelling: the word it was decoded from is the word the encoder writes (decision D3). -/
def Obligations.LegalWordsHaveOneSpelling : Prop :=
  ∀ (q : Request) (i : Instr), decode q = .command i → (encode i).cmd = q.cmd

/-- The spec's own examples of encoding decode to the commands it names, and its examples of illegal words do not decode
(30_encoding.md section 7). -/
def Obligations.ExampleWordsDecode : Prop :=
  decode ⟨0x5008, 0, 0⟩ = .command (.rdreg 8) ∧
  decode ⟨0x6007, 0, 0x7F⟩ = .command (.wrreg 7 0x7F) ∧
  decode ⟨0x1012, 0, 0⟩ = .command (.addrof 18) ∧
  decode ⟨0x2011, 0, 0⟩ = .command (.sizeof 17) ∧
  decode ⟨0x3100, 0xFFE, 0⟩ = .command (.rdW 4094) ∧
  decode ⟨0x4000, 3, 0xFFFFFFFF⟩ = .command (.wrB 3 0xFFFFFFFF) ∧
  decode ⟨0x9000, 0x40, 0⟩ = .command (.halloc 64) ∧
  decode ⟨0x3001, 0, 0⟩ = .illegal ∧ decode ⟨0x5100, 0, 0⟩ = .illegal ∧ decode ⟨0x1200, 0, 0⟩ = .illegal ∧
  decode ⟨0x0000, 0, 0⟩ = .illegal ∧ decode ⟨0x7000, 0, 0⟩ = .illegal

/-! ## The commands, one by one: encoding with the ignored buses, result, failure, frame -/

/-- R110: `ADDROF r` answers the literal table's offset for codes 0..17 and `UnknownRegister` for 18..31, changing nothing. -/
def Obligations.AddrofAnswersTheTableOffset : Prop :=
  (∀ (r : RegCode) (addr wdata : Bus), decode ⟨0x1000#16 ||| r.setWidth 16, addr, wdata⟩ = .command (.addrof r)) ∧
  (∀ (s : State) (r : RegCode), r.toNat ≤ 17 →
    exec (.addrof r) s = .next { s with responses := s.responses ++ [.ok (BitVec.ofNat 32 (literalOffset r))] }) ∧
  (∀ (s : State) (r : RegCode), 18 ≤ r.toNat →
    exec (.addrof r) s = .next { s with responses := s.responses ++ [.fail .unknownRegister] })

/-- R140: `SIZEOF r` answers 1 for codes 8..11 and 0 for every other code, 18..31 included; it never fails and changes nothing. -/
def Obligations.SizeofAnswersTheClass : Prop :=
  (∀ (r : RegCode) (addr wdata : Bus), decode ⟨0x2000#16 ||| r.setWidth 16, addr, wdata⟩ = .command (.sizeof r)) ∧
  (∀ (s : State) (r : RegCode), exec (.sizeof r) s =
    .next { s with responses := s.responses ++ [.ok (if 8 ≤ r.toNat ∧ r.toNat ≤ 11 then 1#32 else 0#32)] })

/-- R120: `RD.B p` answers the sign-extended cell for positions 0..4095 and `OutOfBounds` for every other, changing nothing. -/
def Obligations.ReadByteAnswersTheSignedCell : Prop :=
  (∀ p wdata : Bus, decode ⟨0x3000, p, wdata⟩ = .command (.rdB p)) ∧
  (∀ (s : State) (p : Bus), exec (.rdB p) s =
    if p.toNat ≤ 4095 then .next { s with responses := s.responses ++ [.ok ((s.mem.read p.toNat).signExtend 32)] }
    else .next { s with responses := s.responses ++ [.fail .outOfBounds] })

/-- R121: `RD.W p` answers the sign-extended big-endian pair of cells for positions 0..4094, odd ones included, and
`OutOfBounds` for every other, changing nothing. -/
def Obligations.ReadWordAnswersTheSignedPair : Prop :=
  (∀ p wdata : Bus, decode ⟨0x3100, p, wdata⟩ = .command (.rdW p)) ∧
  (∀ (s : State) (p : Bus), exec (.rdW p) s =
    if p.toNat ≤ 4094 then
      .next { s with responses := s.responses ++ [.ok ((s.mem.read p.toNat ++ s.mem.read (p.toNat + 1)).signExtend 32)] }
    else .next { s with responses := s.responses ++ [.fail .outOfBounds] })

/-- R122: `WR.B p, v` stores `v[7:0]` at `p` and changes no other cell, for positions 0..4095; at every other position it answers
`OutOfBounds` and changes nothing. -/
def Obligations.WriteByteStoresTheLowByte : Prop :=
  (∀ p v : Bus, decode ⟨0x4000, p, v⟩ = .command (.wrB p v)) ∧
  (∀ (s : State) (p v : Bus), p.toNat ≤ 4095 → ∃ t, exec (.wrB p v) s = .next t ∧
    t.mem.read p.toNat = v.extractLsb' 0 8 ∧
    (∀ a : Nat, a ≠ p.toNat → t.mem.read a = s.mem.read a) ∧
    t.inputs = s.inputs ∧ t.responses = s.responses ++ [.ok 0#32]) ∧
  (∀ (s : State) (p v : Bus), 4095 < p.toNat →
    exec (.wrB p v) s = .next { s with responses := s.responses ++ [.fail .outOfBounds] })

/-- `WR.W p, v` stores `v[15:8]` at `p` and `v[7:0]` at `p + 1` and changes no other cell, for positions 0..4094, odd ones
included; at every other position, 4095 among them, it answers `OutOfBounds` and stores neither byte (41_flat_store.md section 2;
all-or-nothing is the spec's decision D10, log entry 13). -/
def Obligations.WriteWordStoresBothBytes : Prop :=
  (∀ p v : Bus, decode ⟨0x4100, p, v⟩ = .command (.wrW p v)) ∧
  (∀ (s : State) (p v : Bus), p.toNat ≤ 4094 → ∃ t, exec (.wrW p v) s = .next t ∧
    t.mem.read p.toNat = v.extractLsb' 8 8 ∧ t.mem.read (p.toNat + 1) = v.extractLsb' 0 8 ∧
    (∀ a : Nat, a ≠ p.toNat → a ≠ p.toNat + 1 → t.mem.read a = s.mem.read a) ∧
    t.inputs = s.inputs ∧ t.responses = s.responses ++ [.ok 0#32]) ∧
  (∀ (s : State) (p v : Bus), 4094 < p.toNat →
    exec (.wrW p v) s = .next { s with responses := s.responses ++ [.fail .outOfBounds] })

/-- R150: `RDREG r` answers the sign-extended pair of cells at the table's offset for codes 8..11, the sign-extended one cell for
codes 0..7 and 12..17, and `UnknownRegister` for 18..31, changing nothing. -/
def Obligations.ReadRegisterAnswersItsView : Prop :=
  (∀ (r : RegCode) (addr wdata : Bus), decode ⟨0x5000#16 ||| r.setWidth 16, addr, wdata⟩ = .command (.rdreg r)) ∧
  (∀ (s : State) (r : RegCode), r.toNat ≤ 17 → exec (.rdreg r) s = .next { s with responses := s.responses ++
    [.ok (if 8 ≤ r.toNat ∧ r.toNat ≤ 11 then (s.mem.read (literalOffset r) ++ s.mem.read (literalOffset r + 1)).signExtend 32
      else (s.mem.read (literalOffset r)).signExtend 32)] }) ∧
  (∀ (s : State) (r : RegCode), 18 ≤ r.toNat →
    exec (.rdreg r) s = .next { s with responses := s.responses ++ [.fail .unknownRegister] })

/-- R151: `WRREG r, v` writes the one or two cells of the register's view and no other, at the address the lookup gives, which is
the literal table's offset; for codes 18..31 it answers `UnknownRegister` and writes nothing. -/
def Obligations.WriteRegisterStoresIntoItsView : Prop :=
  (∀ (r : RegCode) (addr v : Bus), decode ⟨0x6000#16 ||| r.setWidth 16, addr, v⟩ = .command (.wrreg r v)) ∧
  (∀ r : RegCode, r.toNat ≤ 17 → addrOf r = some (literalOffset r)) ∧
  (∀ (s : State) (r : RegCode) (v : Bus) (o : Nat), addrOf r = some o → ∃ t, exec (.wrreg r v) s = .next t ∧
    t.inputs = s.inputs ∧ t.responses = s.responses ++ [.ok 0#32] ∧
    if 8 ≤ r.toNat ∧ r.toNat ≤ 11 then
      t.mem.read o = v.extractLsb' 8 8 ∧ t.mem.read (o + 1) = v.extractLsb' 0 8 ∧
        ∀ a : Nat, a ≠ o → a ≠ o + 1 → t.mem.read a = s.mem.read a
    else t.mem.read o = v.extractLsb' 0 8 ∧ ∀ a : Nat, a ≠ o → t.mem.read a = s.mem.read a) ∧
  (∀ (s : State) (r : RegCode) (v : Bus), 18 ≤ r.toNat →
    exec (.wrreg r v) s = .next { s with responses := s.responses ++ [.fail .unknownRegister] })

/-- R160, R161, R162: the three heap commands always answer `UnimplementedOperation`, whatever their argument and the store, and
change nothing. -/
def Obligations.HeapCommandsAlwaysFail : Prop :=
  (∀ n wdata : Bus, decode ⟨0x8000, n, wdata⟩ = .command (.hfind n) ∧ decode ⟨0x9000, n, wdata⟩ = .command (.halloc n) ∧
    decode ⟨0xA000, n, wdata⟩ = .command (.hfree n)) ∧
  (∀ (s : State) (n : Bus),
    exec (.hfind n) s = .next { s with responses := s.responses ++ [.fail .unimplementedOperation] } ∧
    exec (.halloc n) s = .next { s with responses := s.responses ++ [.fail .unimplementedOperation] } ∧
    exec (.hfree n) s = .next { s with responses := s.responses ++ [.fail .unimplementedOperation] })

/-! ## Failures -/

/-- R171: `UnknownRegister`, status 1, is answered exactly by `ADDROF`, `RDREG`, `WRREG` with a code in 18..31, and by no other request. -/
def Obligations.UnknownRegisterExactlyWhen : Prop :=
  (Response.fail .unknownRegister).status = 1#3 ∧ ∀ (q : Request) (s t : State), runRequest q s = .next t →
    (t.responses = s.responses ++ [.fail .unknownRegister] ↔
      ∃ r : RegCode, 18 ≤ r.toNat ∧ (decode q = .command (.addrof r) ∨ decode q = .command (.rdreg r) ∨
        ∃ v, decode q = .command (.wrreg r v)))

/-- R172: `OutOfBounds`, status 2, is answered exactly by `RD.B`, `WR.B` outside 0..4095 and `RD.W`, `WR.W` outside 0..4094, and by no
other request. -/
def Obligations.OutOfBoundsExactlyWhen : Prop :=
  (Response.fail .outOfBounds).status = 2#3 ∧ ∀ (q : Request) (s t : State), runRequest q s = .next t →
    (t.responses = s.responses ++ [.fail .outOfBounds] ↔
      ∃ p : Bus, (4095 < p.toNat ∧ (decode q = .command (.rdB p) ∨ ∃ v, decode q = .command (.wrB p v))) ∨
        (4094 < p.toNat ∧ (decode q = .command (.rdW p) ∨ ∃ v, decode q = .command (.wrW p v))))

/-- R173: `UnimplementedOperation`, status 3, is answered by `HFIND`, `HALLOC`, `HFREE`, always, and by no other request. -/
def Obligations.UnimplementedExactlyForHeapCommands : Prop :=
  (Response.fail .unimplementedOperation).status = 3#3 ∧ ∀ (q : Request) (s t : State), runRequest q s = .next t →
    (t.responses = s.responses ++ [.fail .unimplementedOperation] ↔
      ∃ n : Bus, decode q = .command (.hfind n) ∨ decode q = .command (.halloc n) ∨ decode q = .command (.hfree n))

/-- A request that is answered with a failure leaves the block exactly as it was: its response is all that is new
(60_exceptions.md section 3, decisions D10 and D19). -/
def Obligations.FailingRequestChangesNothing : Prop :=
  ∀ (q : Request) (s t : State) (k : FailureKind), runRequest q s = .next t → t.responses = s.responses ++ [.fail k] →
    t = { s with responses := s.responses ++ [.fail k] }

/-- No failure is sticky: what a request does and answers does not depend on the responses given before it
(60_exceptions.md section 4, decision D12). -/
def Obligations.EarlierAnswersDoNotMatter : Prop :=
  ∀ (q : Request) (s : State) (earlier : List Response), ∃ (m : Memory) (r : Response),
    runRequest q s = .next { s with mem := m, responses := s.responses ++ [r] } ∧
    runRequest q { s with responses := earlier } = .next { s with mem := m, responses := earlier ++ [r] }

/-! ## What commands change, and what they depend on -/

/-- The frame of every command: a next state in which each cell holds what the command stores there, or what it held; one
response is added and the ports' further inputs stay (41_flat_store.md sections 2 and 3, 43_register_access.md). The frame law is
one the spec marks as derived; that `WR.W 4095` stores neither byte is its decision D10 (log entry 13). -/
def Obligations.CommandChangesOnlyWhatItStores : Prop :=
  ∀ (i : Instr) (s : State), ∃ (t : State) (r : Response), exec i s = .next t ∧ t.inputs = s.inputs ∧
    t.responses = s.responses ++ [r] ∧ ∀ a : Nat, t.mem.read a = (storedByte i a).getD (s.mem.read a)

/-- Cells change only by `rst` and by `WR.B`, `WR.W`, `WRREG` that completed with `OK` (10_state.md section 2). -/
def Obligations.OnlyWritesAndResetChangeCells : Prop :=
  ∀ (s t : State) (a : Nat), step s = .next t → t.mem.read a ≠ s.mem.read a →
    ∃ (p : PortIn) (rest : List PortIn), s.inputs = p :: rest ∧
      (p.rst = true ∨ (p.reqValid = true ∧ t.responses = s.responses ++ [.ok 0#32] ∧ ∃ i, decode p.req = .command i ∧
        ((∃ x v, i = .wrB x v) ∨ (∃ x v, i = .wrW x v) ∨ ∃ r v, i = .wrreg r v)))

/-- What a request answers, and every cell it leaves, depends on the 4096 cells and the request alone: the block has no other
state (10_state.md section 1). -/
def Obligations.AnswerDependsOnTheCellsAlone : Prop :=
  ∀ (q : Request) (s₁ s₂ : State), (∀ a : Nat, a < 4096 → s₁.mem.read a = s₂.mem.read a) →
    ∃ (t₁ t₂ : State) (r : Response), runRequest q s₁ = .next t₁ ∧ runRequest q s₂ = .next t₂ ∧
      t₁.responses = s₁.responses ++ [r] ∧ t₂.responses = s₂.responses ++ [r] ∧
      ∀ a : Nat, a < 4096 → t₁.mem.read a = t₂.mem.read a

/-- Every answer of `ADDROF` is at most 20, of `SIZEOF` 0 or 1, of a Byte read in -128..127, of a Word or register read in
-32768..32767, of a write 0, signed ranges read in two's complement (log entry 7); the heap commands answer no value (30_encoding.md section 4). -/
def Obligations.ResultsStayInTheirRange : Prop :=
  ∀ (i : Instr) (s t : State) (x : Bus), exec i s = .next t → t.responses = s.responses ++ [.ok x] →
    match i with
    | .addrof _ => x.toNat ≤ 20
    | .sizeof _ => x.toNat ≤ 1
    | .rdB _ => -128 ≤ x.toInt ∧ x.toInt ≤ 127
    | .rdW _ => -32768 ≤ x.toInt ∧ x.toInt ≤ 32767
    | .rdreg r => -32768 ≤ x.toInt ∧ x.toInt ≤ 32767 ∧ (¬ (8 ≤ r.toNat ∧ r.toNat ≤ 11) → -128 ≤ x.toInt ∧ x.toInt ≤ 127)
    | .wrB _ _ | .wrW _ _ | .wrreg _ _ => x = 0#32
    | .hfind _ | .halloc _ | .hfree _ => False

/-- Two canonical stores whose 4096 cells agree are the same data, so that states can be compared (the canonical form is the
model's, log entry 11). -/
def Obligations.CanonicalStoresAreUnique : Prop :=
  ∀ m₁ m₂ : Memory, m₁.wf = true → m₂.wf = true → (∀ a : Nat, a < 4096 → m₁.read a = m₂.read a) → m₁ = m₂

/-! ## Names, views and round trips -/

/-- A write to one named register leaves what any other named register reads, unless the two are a 16-bit register and the 32-bit
register of the same letter, `EAX` and `AX` and so on; in particular `AX` shares nothing with `AL`, `AH` (10_state.md section 6,
a statement the spec marks as derived). -/
def Obligations.UnaliasedRegistersKeepTheirValue : Prop :=
  ∀ (s : State) (r₁ r₂ : RegCode) (v : Bus), r₁.toNat ≤ 17 → r₂.toNat ≤ 17 → r₁ ≠ r₂ →
    ¬ (8 ≤ r₁.toNat ∧ r₁.toNat ≤ 11 ∧ r₂.toNat = r₁.toNat + 4) → ¬ (8 ≤ r₂.toNat ∧ r₂.toNat ≤ 11 ∧ r₁.toNat = r₂.toNat + 4) →
    ∃ (t : State) (x : Bus), exec (.wrreg r₁ v) s = .next t ∧
      exec (.rdreg r₂) s = .next { s with responses := s.responses ++ [.ok x] } ∧
      exec (.rdreg r₂) t = .next { t with responses := t.responses ++ [.ok x] }

/-- The named overlaps that exist: a 16-bit register's high byte is the 32-bit register of its letter, both ways (10_state.md
section 6, a statement the spec marks as derived). -/
def Obligations.WordRegisterSharesItsHighByte : Prop :=
  ∀ (s : State) (w e : RegCode) (v : Bus), 8 ≤ w.toNat → w.toNat ≤ 11 → e.toNat = w.toNat + 4 →
    (∃ t, exec (.wrreg w v) s = .next t ∧
      exec (.rdreg e) t = .next { t with responses := t.responses ++ [.ok ((v.extractLsb' 8 8).signExtend 32)] }) ∧
    (∃ t, exec (.wrreg e v) s = .next t ∧
      exec (.rdreg w) t = .next { t with responses := t.responses ++
        [.ok ((v.extractLsb' 0 8 ++ s.mem.read (literalOffset w + 1)).signExtend 32)] })

/-- `WR.B p, v` then `RD.B p` answers `sext_32(v[7:0])`, for every position 0..4095, which is `v` exactly when `v`, read in two's
complement (log entry 7), is in -128..127 (41_flat_store.md section 3). -/
def Obligations.ByteRoundTrip : Prop :=
  ∀ (s : State) (p v : Bus), p.toNat ≤ 4095 →
    (∃ t, exec (.wrB p v) s = .next t ∧
      exec (.rdB p) t = .next { t with responses := t.responses ++ [.ok ((v.extractLsb' 0 8).signExtend 32)] }) ∧
    ((v.extractLsb' 0 8).signExtend 32 = v ↔ -128 ≤ v.toInt ∧ v.toInt ≤ 127)

/-- `WR.W p, v` then `RD.W p` answers `sext_32(v[15:0])`, for every position 0..4094, which is `v` exactly when `v`, read in two's
complement (log entry 7), is in -32768..32767 (41_flat_store.md section 3, decision D23). -/
def Obligations.WordRoundTrip : Prop :=
  ∀ (s : State) (p v : Bus), p.toNat ≤ 4094 →
    (∃ t, exec (.wrW p v) s = .next t ∧
      exec (.rdW p) t = .next { t with responses := t.responses ++ [.ok ((v.extractLsb' 0 16).signExtend 32)] }) ∧
    ((v.extractLsb' 0 16).signExtend 32 = v ↔ -32768 ≤ v.toInt ∧ v.toInt ≤ 32767)

/-- R56: after a Word write a Byte read of `p` answers the high byte and of `p + 1` the low byte; after two Byte writes a Word
read answers the two low bytes side by side; Word accesses at `p` and `p + 1` overlap in the cell `p + 1`, low byte of the first
and high byte of the second. -/
def Obligations.MixedWidthViews : Prop :=
  (∀ (s : State) (p v : Bus), p.toNat ≤ 4094 → ∃ t, exec (.wrW p v) s = .next t ∧
    exec (.rdB p) t = .next { t with responses := t.responses ++ [.ok ((v.extractLsb' 8 8).signExtend 32)] } ∧
    exec (.rdB (p + 1)) t = .next { t with responses := t.responses ++ [.ok ((v.extractLsb' 0 8).signExtend 32)] }) ∧
  (∀ (s : State) (p a b : Bus), p.toNat ≤ 4094 → ∃ t u, exec (.wrB p a) s = .next t ∧ exec (.wrB (p + 1) b) t = .next u ∧
    exec (.rdW p) u = .next { u with responses := u.responses ++ [.ok ((a.extractLsb' 0 8 ++ b.extractLsb' 0 8).signExtend 32)] }) ∧
  (∀ (s : State) (p v : Bus), p.toNat ≤ 4093 → ∃ t, exec (.wrW p v) s = .next t ∧
    exec (.rdW (p + 1)) t = .next { t with responses := t.responses ++
      [.ok ((v.extractLsb' 0 8 ++ s.mem.read (p.toNat + 2)).signExtend 32)] })

/-- Two overlapping Word writes: the later one wins on the shared cell; a Byte write over the low byte of a Word replaces it
(41_flat_store.md section 3, a law the spec marks as derived). -/
def Obligations.LaterWriteWinsOnTheSharedCell : Prop :=
  (∀ (s : State) (p v u : Bus), p.toNat ≤ 4093 → ∃ t₁ t₂, exec (.wrW p v) s = .next t₁ ∧ exec (.wrW (p + 1) u) t₁ = .next t₂ ∧
    t₂.mem.read p.toNat = v.extractLsb' 8 8 ∧ t₂.mem.read (p.toNat + 1) = u.extractLsb' 8 8 ∧
    t₂.mem.read (p.toNat + 2) = u.extractLsb' 0 8) ∧
  (∀ (s : State) (p v b : Bus), p.toNat ≤ 4094 → ∃ t₁ t₂, exec (.wrW p v) s = .next t₁ ∧ exec (.wrB (p + 1) b) t₁ = .next t₂ ∧
    exec (.rdW p) t₂ = .next { t₂ with responses := t₂.responses ++ [.ok ((v.extractLsb' 8 8 ++ b.extractLsb' 0 8).signExtend 32)] })

/-- Register access is the caller's own composition of `ADDROF`, `SIZEOF` and a raw access: the same next state, so the same
store and the same answer; for codes 18..31 it fails as `ADDROF` fails (43_register_access.md, a law the spec marks as derived;
the single commands are its decision D16). -/
def Obligations.RegisterAccessIsTheComposition : Prop :=
  (∀ (s : State) (r : RegCode), r.toNat ≤ 17 → ∃ o size : Bus,
    exec (.addrof r) s = .next { s with responses := s.responses ++ [.ok o] } ∧
    exec (.sizeof r) s = .next { s with responses := s.responses ++ [.ok size] } ∧
    ((size = 0#32 ∧ exec (.rdreg r) s = exec (.rdB o) s ∧ ∀ v, exec (.wrreg r v) s = exec (.wrB o v) s) ∨
      (size = 1#32 ∧ exec (.rdreg r) s = exec (.rdW o) s ∧ ∀ v, exec (.wrreg r v) s = exec (.wrW o v) s))) ∧
  (∀ (s : State) (r : RegCode) (v : Bus), 18 ≤ r.toNat →
    exec (.rdreg r) s = exec (.addrof r) s ∧ exec (.wrreg r v) s = exec (.addrof r) s)

/-- A raw Word write at 2, 6, 10, 14 reaches the 8-bit pair AH and AL, BH and BL, CH and CL, DH and DL, high name first
(10_state.md section 6, a map the spec marks as derived). -/
def Obligations.RawWordReachesHighAndLowNames : Prop :=
  ∀ (s : State) (v : Bus), ∀ x ∈ [(2#32, 4#5, 0#5), (6#32, 5#5, 1#5), (10#32, 6#5, 2#5), (14#32, 7#5, 3#5)],
    ∃ t, exec (.wrW x.1 v) s = .next t ∧
      exec (.rdreg x.2.1) t = .next { t with responses := t.responses ++ [.ok ((v.extractLsb' 8 8).signExtend 32)] } ∧
      exec (.rdreg x.2.2) t = .next { t with responses := t.responses ++ [.ok ((v.extractLsb' 0 8).signExtend 32)] }

/-- The source's aliasing test: after `WR.W 0, 0x1234` a Byte read of AL's cell answers what that cell held before, `0x12` is
read as `EAX` and at 0, `0x34` at 1 (43_register_access.md). -/
def Obligations.LiteralAliasingTest : Prop :=
  ∀ s : State, ∃ t, exec (.wrW 0 0x1234) s = .next t ∧
    exec (.rdB 3) t = .next { t with responses := t.responses ++ [.ok ((s.mem.read 3).signExtend 32)] } ∧
    exec (.rdreg 0) t = .next { t with responses := t.responses ++ [.ok ((s.mem.read 3).signExtend 32)] } ∧
    exec (.rdreg 12) t = .next { t with responses := t.responses ++ [.ok 0x12] } ∧
    exec (.rdB 0) t = .next { t with responses := t.responses ++ [.ok 0x12] } ∧
    exec (.rdB 1) t = .next { t with responses := t.responses ++ [.ok 0x34] }

/-! ## Responses and output ports -/

/-- The wire form of a response: the five status codes, 0 exactly for a completion, and `rdata` 0 on every failure
(30_encoding.md section 4, decisions D8 and D11). -/
def Obligations.StatusCodesOfResponses : Prop :=
  (∀ v : Bus, (Response.ok v).status = 0#3 ∧ (Response.ok v).rdata = v) ∧
  (Response.fail .unknownRegister).status = 1#3 ∧ (Response.fail .outOfBounds).status = 2#3 ∧
  (Response.fail .unimplementedOperation).status = 3#3 ∧ (Response.fail .illegalCommand).status = 4#3 ∧
  (∀ k : FailureKind, (Response.fail k).rdata = 0#32) ∧
  ∀ r : Response, r.status = 0#3 ↔ ∃ v, r = .ok v

/-- After a request the output ports are valid and carry the status and result of that request (30_encoding.md section 2; read
off the list of responses, the model's choice, log entry 3). -/
def Obligations.OutputPortsShowTheLastAnswer : Prop :=
  ∀ (q : Request) (s : State), ∃ (t : State) (r : Response), runRequest q s = .next t ∧ t.responses = s.responses ++ [r] ∧
    t.respValid = true ∧ t.status = some r.status ∧ t.rdata = some r.rdata

/-- The block is never stuck, and every accepted request gets exactly one response: each step takes one input off the ports and
adds one response if a request was accepted, none otherwise (30_encoding.md section 2, 70_reset_and_hazards.md section 4,
decisions D2 and D18). That `rst` leaves the record of responses is log entry 3; that it drops a request presented with it is log
entry 5. -/
def Obligations.EveryInputIsTakenAndAnsweredOnce : Prop :=
  ∀ (s : State) (p : PortIn) (rest : List PortIn), s.inputs = p :: rest → ∃ t, step s = .next t ∧ t.inputs = rest ∧
    if p.accepted = true then ∃ r, t.responses = s.responses ++ [r] else t.responses = s.responses

/-! ## Runs -/

/-- A run over any inputs from any state ends with all inputs taken and one response for each accepted request
(70_reset_and_hazards.md section 4; a run is the spec's decision D18). That responses survive `rst` is log entry 3; that a request
presented with `rst` is dropped is log entry 5. -/
def Obligations.RunAnswersEveryRequest : Prop :=
  ∀ s : State, ∃ (t : State) (answers : List Response), s.runAll = .next t ∧ t.inputs = [] ∧
    t.responses = s.responses ++ answers ∧ answers.length = s.inputs.countP PortIn.accepted

/-- At the end of any run every cell holds what the last input to cover it put there, 0 if that was a reset, and what it held at
the start if none did; and a read answers that value (20_memory.md section 6; that `rst` wins over a request presented with it is
the model's reading, log entry 5; that `WR.W 4095` stores neither byte is decision D10, log entry 13; a run is decision D18). -/
def Obligations.LastWriteWins : Prop :=
  ∀ s : State, ∃ t, s.runAll = .next t ∧
    (∀ a : Nat, t.mem.read a = (lastCovering s.inputs a).getD (s.mem.read a)) ∧
    ∀ p : Bus, p.toNat ≤ 4095 → exec (.rdB p) t = .next { t with responses := t.responses ++
      [.ok (((lastCovering s.inputs p.toNat).getD (s.mem.read p.toNat)).signExtend 32)] }

/-- A run is free of failures when every request in it decodes to a command that the table of failures lets succeed, whatever
the store holds (60_exceptions.md sections 1 and 4; a run is decision D18; the record of failures is the caller's, decision D12,
kept in the model's list of responses, log entry 3; requests presented with `rst` are dropped, log entry 5). -/
def Obligations.RunsOfSoundRequestsAreFailureFree : Prop :=
  ∀ s : State, s.failureFree = true →
    (∀ p ∈ s.inputs, p.accepted = true → ∃ i, decode p.req = .command i ∧ expectedFailure i = none) →
    ∃ t, s.runAll = .next t ∧ t.failureFree = true

/-- Two runs of the same inputs from stores whose 4096 cells agree give the same answers and end with the same cells: the block
has no hidden state (10_state.md section 7; a run is decision D18). That responses survive `rst` is log entry 3; that a request
presented with `rst` is dropped is log entry 5. -/
def Obligations.RunsDependOnTheCellsAlone : Prop :=
  ∀ s₁ s₂ : State, s₁.inputs = s₂.inputs → (∀ a : Nat, a < 4096 → s₁.mem.read a = s₂.mem.read a) →
    ∃ (t₁ t₂ : State) (answers : List Response), s₁.runAll = .next t₁ ∧ s₂.runAll = .next t₂ ∧
      t₁.responses = s₁.responses ++ answers ∧ t₂.responses = s₂.responses ++ answers ∧
      ∀ a : Nat, a < 4096 → t₁.mem.read a = t₂.mem.read a

/-- The store's contents do not survive reset: once `rst` is asserted, two runs of the same inputs give the same answers whatever
the stores held before (20_memory.md section 5, 70_reset_and_hazards.md section 1, decision D13; a run is decision D18). That
responses survive `rst` is log entry 3; that a request presented with `rst` is dropped is log entry 5. -/
def Obligations.ResetForgetsTheStore : Prop :=
  ∀ (s₁ s₂ : State) (p : PortIn) (rest : List PortIn), s₁.inputs = p :: rest → s₂.inputs = p :: rest → p.rst = true →
    ∃ (t₁ t₂ : State) (answers : List Response), s₁.runAll = .next t₁ ∧ s₂.runAll = .next t₂ ∧
      t₁.responses = s₁.responses ++ answers ∧ t₂.responses = s₂.responses ++ answers ∧ t₁.mem = t₂.mem

/-! ## Runs, step by step -/

/-- Every step keeps a sound run sound: no failure on record, and every request still to come decodes to a command that the table
of failures lets succeed (60_exceptions.md sections 1 and 4; the record of failures is the caller's, decision D12, log entry 3;
requests presented with `rst` are dropped, log entry 5). -/
def Obligations.StepKeepsASoundRun : Prop :=
  ∀ s t : State, SoundRun s → step s = .next t → SoundRun t

/-- The state after reset is a sound run: nothing is presented and no failure is on record (log entries 1 and 3). -/
def Obligations.ResetIsASoundRun : Prop := SoundRun State.reset

/-- Every step keeps what the run is to leave: if the inputs still to come leave the cells `final`, counted from the cells now, they
do so after the step (20_memory.md section 6; that `rst` wins over a request presented with it is log entry 5; that `WR.W 4095`
stores neither byte is decision D10, log entry 13). -/
def Obligations.StepKeepsWhatTheRunLeaves : Prop :=
  ∀ (final : Nat → Byte) (s t : State), (∀ a : Nat, (lastCovering s.inputs a).getD (s.mem.read a) = final a) →
    step s = .next t → ∀ a : Nat, (lastCovering t.inputs a).getD (t.mem.read a) = final a
end

