-- ==== Sys2Proof/Laws/Decode.lean ====
section
/-! SUPPORT. Decoding said once, as a chain of tests on the upper eleven bits of the command word and on `reg`; packing and unpacking of command words and requests. -/

namespace Sys2Proof

/-- Bits 15..5 of a command word: `op`, `z1`, `sz`, `z0`. -/
def upper (w : CmdWord) : BitVec 11 := w.extractLsb' 5 11

theorem upper_append_regField (w : CmdWord) : (upper w ++ regField w : CmdWord) = w := by
  apply BitVec.eq_of_getLsbD_eq
  intro i hi
  rw [BitVec.getLsbD_append]
  by_cases h : i < 5
  · simp [regField, h]
  · simp [upper, h, show i - 5 < 11 by omega, show 5 + (i - 5) = i by omega]

@[simp] theorem upper_append (h : BitVec 11) (l : RegCode) : upper (h ++ l) = h := by
  apply BitVec.eq_of_getLsbD_eq
  intro i hi
  simp only [upper, BitVec.getLsbD_extractLsb', BitVec.getLsbD_append]
  simp [hi]

@[simp] theorem regField_append (h : BitVec 11) (l : RegCode) : regField (h ++ l) = l := by
  apply BitVec.eq_of_getLsbD_eq
  intro i hi
  simp only [regField, BitVec.getLsbD_extractLsb', BitVec.getLsbD_append]
  simp [hi]

theorem word_ext_iff (w c : CmdWord) : w = c ↔ upper w = upper c ∧ regField w = regField c :=
  ⟨fun h => h ▸ ⟨rfl, rfl⟩, fun h => by rw [← upper_append_regField w, ← upper_append_regField c, h.1, h.2]⟩

/-- The mask of the rows with a register operand keeps the upper bits. -/
theorem and_register_mask (w : CmdWord) : w &&& 0xFFE0#16 = (upper w ++ 0#5 : CmdWord) := by
  have key : ∀ i < 16, (0xFFE0#16).getLsbD i = decide (5 ≤ i) := by decide
  apply BitVec.eq_of_getLsbD_eq
  intro i hi
  rw [BitVec.getLsbD_and, key i hi, BitVec.getLsbD_append]
  by_cases h : i < 5
  · simp [h]
  · simp [upper, h, show i - 5 < 11 by omega, show 5 + (i - 5) = i by omega, show 5 ≤ i by omega]

theorem and_full_mask (w : CmdWord) : w &&& 0xFFFF#16 = w := by
  rw [show 0xFFFF#16 = BitVec.allOnes 16 from rfl, BitVec.and_allOnes]

/-- When a row with a register operand selects a word. -/
theorem selects_register_row (c w : CmdWord) (b : RegCode → Bus → Bus → Instr) (hc : regField c = 0#5) :
    (CommandRow.mk c 0xFFE0#16 b).selects w = decide (upper w = upper c) := by
  rw [Bool.eq_iff_iff]
  simp [CommandRow.selects, and_register_mask, word_ext_iff, hc]

/-- When a row without a register operand selects a word. -/
theorem selects_full_row (c w : CmdWord) (b : RegCode → Bus → Bus → Instr) (hc : regField c = 0#5) :
    (CommandRow.mk c 0xFFFF#16 b).selects w = decide (upper w = upper c ∧ regField w = 0#5) := by
  rw [Bool.eq_iff_iff]
  simp only [CommandRow.selects, beq_iff_eq, decide_eq_true_eq]
  rw [and_full_mask, word_ext_iff, hc]

/-- `decode` over any rows. -/
def decodeIn (rows : List CommandRow) (cmd : CmdWord) (addr wdata : Bus) : Decoded :=
  match rows.find? (fun row => row.selects cmd) with
  | some row => .command (row.build (regField cmd) addr wdata)
  | none => .illegal

theorem decodeIn_cons {row : CommandRow} {cmd : CmdWord} {P : Prop} [Decidable P] (rows : List CommandRow) (addr wdata : Bus)
    (h : row.selects cmd = decide P) : decodeIn (row :: rows) cmd addr wdata =
      if P then .command (row.build (regField cmd) addr wdata) else decodeIn rows cmd addr wdata := by
  rw [decodeIn, List.find?_cons, h]
  by_cases hp : P
  · rw [if_pos hp, decide_eq_true hp]
  · rw [if_neg hp, decide_eq_false hp]
    rfl

theorem decodeIn_register (c cmd : CmdWord) (b : RegCode → Bus → Bus → Instr) (rows : List CommandRow) (addr wdata : Bus)
    (hc : regField c = 0#5) : decodeIn (⟨c, 0xFFE0#16, b⟩ :: rows) cmd addr wdata =
      if upper cmd = upper c then .command (b (regField cmd) addr wdata) else decodeIn rows cmd addr wdata :=
  decodeIn_cons rows addr wdata (selects_register_row c cmd b hc)

theorem decodeIn_full (c cmd : CmdWord) (b : RegCode → Bus → Bus → Instr) (rows : List CommandRow) (addr wdata : Bus)
    (hc : regField c = 0#5) : decodeIn (⟨c, 0xFFFF#16, b⟩ :: rows) cmd addr wdata =
      if upper cmd = upper c ∧ regField cmd = 0#5 then .command (b (regField cmd) addr wdata)
      else decodeIn rows cmd addr wdata :=
  decodeIn_cons rows addr wdata (selects_full_row c cmd b hc)

/-- Everything the decoder can answer. -/
theorem decode_eq (cmd : CmdWord) (addr wdata : Bus) : decode ⟨cmd, addr, wdata⟩ =
    if upper cmd = 0x80#11 then .command (.addrof (regField cmd))
    else if upper cmd = 0x100#11 then .command (.sizeof (regField cmd))
    else if upper cmd = 0x180#11 ∧ regField cmd = 0#5 then .command (.rdB addr)
    else if upper cmd = 0x188#11 ∧ regField cmd = 0#5 then .command (.rdW addr)
    else if upper cmd = 0x200#11 ∧ regField cmd = 0#5 then .command (.wrB addr wdata)
    else if upper cmd = 0x208#11 ∧ regField cmd = 0#5 then .command (.wrW addr wdata)
    else if upper cmd = 0x280#11 then .command (.rdreg (regField cmd))
    else if upper cmd = 0x300#11 then .command (.wrreg (regField cmd) wdata)
    else if upper cmd = 0x400#11 ∧ regField cmd = 0#5 then .command (.hfind addr)
    else if upper cmd = 0x480#11 ∧ regField cmd = 0#5 then .command (.halloc addr)
    else if upper cmd = 0x500#11 ∧ regField cmd = 0#5 then .command (.hfree addr)
    else .illegal := by
  show decodeIn commandTable cmd addr wdata = _
  unfold commandTable
  rw [decodeIn_register _ _ _ _ _ _ rfl, decodeIn_register _ _ _ _ _ _ rfl, decodeIn_full _ _ _ _ _ _ rfl,
    decodeIn_full _ _ _ _ _ _ rfl, decodeIn_full _ _ _ _ _ _ rfl, decodeIn_full _ _ _ _ _ _ rfl,
    decodeIn_register _ _ _ _ _ _ rfl, decodeIn_register _ _ _ _ _ _ rfl, decodeIn_full _ _ _ _ _ _ rfl,
    decodeIn_full _ _ _ _ _ _ rfl, decodeIn_full _ _ _ _ _ _ rfl]
  rfl

/-- An illegal word is illegal whatever stands on the buses. -/
theorem illegal_of_cmd {cmd : CmdWord} {addr wdata : Bus} (h : decode ⟨cmd, addr, wdata⟩ = .illegal) (addr' wdata' : Bus) :
    decode ⟨cmd, addr', wdata'⟩ = .illegal := by
  simp only [decode] at h ⊢
  split at h <;> simp_all

@[simp] theorem cmdFields_fieldsWord (f : CmdFields) : cmdFields (fieldsWord f) = f := by
  obtain ⟨op, z1, sz, z0, reg⟩ := f
  simp only [cmdFields, regField, fieldsWord, CmdFields.mk.injEq]
  refine ⟨?_, ?_, ?_, ?_, ?_⟩ <;>
    (apply BitVec.eq_of_getLsbD_eq
     intro i hi
     simp only [BitVec.getLsbD_extractLsb', BitVec.getLsbD_append]
     interval_cases i <;> simp)

@[simp] theorem requestOfBits_requestBits (q : Request) : requestOfBits (requestBits q) = q := by
  obtain ⟨cmd, addr, wdata⟩ := q
  simp only [requestOfBits, requestBits, Request.mk.injEq]
  refine ⟨?_, ?_, ?_⟩ <;>
    (apply BitVec.eq_of_getLsbD_eq
     intro i hi
     simp only [BitVec.getLsbD_extractLsb', BitVec.getLsbD_append])
  · simp [hi]
  · simp [hi, show ¬ (16 + i < 16) by omega]
  · simp [hi, show ¬ (48 + i < 16) by omega, show ¬ (48 + i - 16 < 32) by omega, show 48 + i - 16 - 32 = i by omega]

end Sys2Proof
end

