-- ==== Sys2Proof/Laws/Memory.lean ====
section
/-! SUPPORT. The laws of the store: a read after a write, and that every memory operation keeps the canonical form. The read laws need no well-formedness. -/

namespace Sys2Proof.Machine

@[simp] theorem read_nil (a : Nat) : Memory.read [] a = 0 := rfl

theorem read_cons (c : Host.Cell) (m : Memory) (a : Nat) :
    Memory.read (c :: m) a = if c.1 = a then c.2 else Memory.read m a := rfl

theorem read_without (m : Memory) (a x : Nat) :
    (m.without a).read x = if x = a then unlistedByte else m.read x := by
  induction m with
  | nil => simp [Memory.without, Memory.read, unlistedByte]
  | cons c m ih =>
    by_cases hc : c.1 = a
    · have : Memory.without (c :: m) a = Memory.without m a := by simp [Memory.without, hc]
      rw [this, ih, read_cons]
      by_cases hx : x = a
      · simp [hx]
      · have : ¬ c.1 = x := fun h => hx (h ▸ hc)
        simp [hx, this]
    · have : Memory.without (c :: m) a = c :: Memory.without m a := by simp [Memory.without, hc]
      rw [this, read_cons, ih, read_cons]
      by_cases hx : x = a
      · subst hx; simp [hc]
      · simp [hx]

/-- `m` lists no entry at `a`. -/
abbrev Memory.free (m : Memory) (a : Nat) : Prop := ∀ c ∈ m, c.1 ≠ a

theorem without_free (m : Memory) (a : Nat) : (m.without a).free a := by
  intro c hc
  simpa using (List.mem_filter.mp hc).2

theorem read_place {m : Memory} {a : Nat} (h : m.free a) (b : Byte) (x : Nat) :
    (m.place a b).read x = if x = a then b else m.read x := by
  induction m with
  | nil =>
    rw [show Memory.place [] a b = [(a, b)] from rfl, read_cons]
    simp [eq_comm]
  | cons c m ih =>
    unfold Memory.place
    split
    · rw [read_cons]
      simp [eq_comm]
    · rw [read_cons, ih (fun d hd => h d (List.mem_cons_of_mem _ hd)), read_cons]
      have hc : c.1 ≠ a := h c List.mem_cons_self
      by_cases hx : x = a
      · subst hx; simp [hc]
      · simp [hx]

/-- What a write does to every cell. -/
theorem read_write (m : Memory) (a : Nat) (b : Byte) (x : Nat) :
    (m.write a b).read x = if x = a then b else m.read x := by
  unfold Memory.write
  split
  · next h => rw [read_without, h]
  · rw [read_place (without_free m a), read_without]
    by_cases hx : x = a <;> simp [hx]

@[simp] theorem read_write_same (m : Memory) (a : Nat) (b : Byte) : (m.write a b).read a = b := by
  simp [read_write]

theorem read_write_other (m : Memory) {a x : Nat} (b : Byte) (h : x ≠ a) : (m.write a b).read x = m.read x := by
  simp [read_write, h]

theorem store_byte (m : Memory) (p : Nat) (v : Bus) : m.store p .byte v = m.write p (lowByte v) := rfl

theorem store_word (m : Memory) (p : Nat) (v : Bus) :
    m.store p .word v = (m.write p (highByte v)).write (p + 1) (lowByte v) := rfl

/-- What a Byte store does to every cell (R11, R126). -/
theorem read_store_byte (m : Memory) (p : Nat) (v : Bus) (x : Nat) :
    (m.store p .byte v).read x = if x = p then lowByte v else m.read x := by
  rw [store_byte, read_write]

/-- What a Word store does to every cell (R11, R126). -/
theorem read_store_word (m : Memory) (p : Nat) (v : Bus) (x : Nat) :
    (m.store p .word v).read x = if x = p then highByte v else if x = p + 1 then lowByte v else m.read x := by
  rw [store_word, read_write, read_write]
  by_cases h : x = p
  · simp [h]
  · simp [h]

/-- The canonical form, unfolded once. -/
theorem wf_cons (c : Host.Cell) (m : Memory) :
    Memory.wf (c :: m) = true ↔ c.2 ≠ unlistedByte ∧ c.1 < Config.memSize ∧ (∀ d ∈ m, c.1 < d.1) ∧ m.wf = true := by
  rw [Memory.wf]
  simp [and_assoc]

theorem wf_nil : Memory.wf [] = true := rfl

theorem mem_without {m : Memory} {a : Nat} {c : Host.Cell} (h : c ∈ m.without a) : c ∈ m :=
  (List.mem_filter.mp h).1

theorem mem_place {m : Memory} {a : Nat} {b : Byte} {c : Host.Cell} (h : c ∈ m.place a b) : c = (a, b) ∨ c ∈ m := by
  induction m with
  | nil => simpa [Memory.place] using h
  | cons d m ih =>
    unfold Memory.place at h
    split at h
    · simpa using h
    · rcases List.mem_cons.mp h with h | h
      · exact .inr (h ▸ List.mem_cons_self)
      · exact (ih h).imp_right (List.mem_cons_of_mem _)

theorem wf_without {m : Memory} (h : m.wf = true) (a : Nat) : (m.without a).wf = true := by
  induction m with
  | nil => rfl
  | cons c m ih =>
    obtain ⟨hv, hb, hlt, hm⟩ := (wf_cons c m).mp h
    by_cases hc : c.1 = a
    · have : Memory.without (c :: m) a = Memory.without m a := by simp [Memory.without, hc]
      rw [this]
      exact ih hm
    · have : Memory.without (c :: m) a = c :: Memory.without m a := by simp [Memory.without, hc]
      rw [this, wf_cons]
      exact ⟨hv, hb, fun d hd => hlt d (mem_without hd), ih hm⟩

theorem wf_place {m : Memory} (h : m.wf = true) {a : Nat} {b : Byte} (hfree : m.free a) (ha : a < Config.memSize)
    (hb : b ≠ unlistedByte) : (m.place a b).wf = true := by
  induction m with
  | nil => exact (wf_cons _ _).mpr ⟨hb, ha, by simp, rfl⟩
  | cons c m ih =>
    obtain ⟨hv, hbd, hlt, hm⟩ := (wf_cons c m).mp h
    unfold Memory.place
    split
    · next hac =>
      refine (wf_cons _ _).mpr ⟨hb, ha, fun d hd => ?_, h⟩
      rcases List.mem_cons.mp hd with rfl | hd
      · exact hac
      · exact Nat.lt_trans hac (hlt d hd)
    · next hac =>
      refine (wf_cons _ _).mpr ⟨hv, hbd, fun d hd => ?_, ih hm (fun d hd => hfree d (List.mem_cons_of_mem _ hd))⟩
      rcases mem_place hd with rfl | hd
      · have : c.1 ≠ a := hfree c List.mem_cons_self
        show c.1 < a
        omega
      · exact hlt d hd

/-- A write inside the store keeps the canonical form. -/
theorem wf_write {m : Memory} (h : m.wf = true) {a : Nat} (ha : a < Config.memSize) (b : Byte) : (m.write a b).wf = true := by
  unfold Memory.write
  split
  · exact wf_without h a
  · next hb => exact wf_place (wf_without h a) (without_free m a) ha hb

/-- One lane keeps the canonical form if its cell is in the store or it is not enabled. -/
theorem wf_drive {m : Memory} (h : m.wf = true) {l : Lane} (hl : l.enable = true → l.cell < Config.memSize) :
    (m.drive l).wf = true := by
  unfold Memory.drive
  split
  · next he => exact wf_write h (hl he) l.data
  · exact h

/-- How many cells an access reaches (R9). -/
def nbytes : Size → Nat
  | .byte => 1
  | .word => 2

/-- A store of `n` cells inside `[0, 4096)` keeps the canonical form. -/
theorem wf_store {m : Memory} (h : m.wf = true) {p : Nat} {sz : Size} (hp : p + nbytes sz ≤ Config.memSize) (v : Bus) :
    (m.store p sz v).wf = true := by
  have h1 : (m.drive (laneH p sz v)).wf = true :=
    wf_drive h (fun _ => by
      show p < Config.memSize
      cases sz <;> simp only [nbytes] at hp <;> omega)
  refine wf_drive h1 (fun he => ?_)
  cases sz
  · exact Bool.noConfusion he
  · show p + 1 < Config.memSize
    simp only [nbytes] at hp
    omega

end Sys2Proof.Machine
end

