-- ==== Sys2Proof/Laws/State.lean ====
section
/-! SUPPORT. One lemma per field for each update of the state. -/

namespace Sys2Proof.Machine

@[simp] theorem respond_mem (s : State) (r : Response) : (s.respond r).mem = s.mem := rfl
@[simp] theorem respond_inputs (s : State) (r : Response) : (s.respond r).inputs = s.inputs := rfl
@[simp] theorem respond_responses (s : State) (r : Response) : (s.respond r).responses = s.responses ++ [r] := rfl

@[simp] theorem complete_mem (s : State) (v : Bus) : (s.complete v).mem = s.mem := rfl
@[simp] theorem complete_inputs (s : State) (v : Bus) : (s.complete v).inputs = s.inputs := rfl
@[simp] theorem complete_responses (s : State) (v : Bus) : (s.complete v).responses = s.responses ++ [.ok v] := rfl

@[simp] theorem raise_mem (s : State) (k : FailureKind) : (s.raise k).mem = s.mem := rfl
@[simp] theorem raise_inputs (s : State) (k : FailureKind) : (s.raise k).inputs = s.inputs := rfl
@[simp] theorem raise_responses (s : State) (k : FailureKind) : (s.raise k).responses = s.responses ++ [.fail k] := rfl

@[simp] theorem readAt_mem (s : State) (p : Nat) (sz : Size) : (s.readAt p sz).mem = s.mem := rfl
@[simp] theorem readAt_inputs (s : State) (p : Nat) (sz : Size) : (s.readAt p sz).inputs = s.inputs := rfl
@[simp] theorem readAt_responses (s : State) (p : Nat) (sz : Size) :
    (s.readAt p sz).responses = s.responses ++ [.ok (s.mem.load p sz)] := rfl

@[simp] theorem writeAt_mem (s : State) (p : Nat) (sz : Size) (v : Bus) : (s.writeAt p sz v).mem = s.mem.store p sz v := rfl
@[simp] theorem writeAt_inputs (s : State) (p : Nat) (sz : Size) (v : Bus) : (s.writeAt p sz v).inputs = s.inputs := rfl
@[simp] theorem writeAt_responses (s : State) (p : Nat) (sz : Size) (v : Bus) :
    (s.writeAt p sz v).responses = s.responses ++ [.ok 0] := rfl

@[simp] theorem resetBlock_mem (s : State) : s.resetBlock.mem = [] := rfl
@[simp] theorem resetBlock_inputs (s : State) : s.resetBlock.inputs = s.inputs := rfl
@[simp] theorem resetBlock_responses (s : State) : s.resetBlock.responses = s.responses := rfl

@[simp] theorem present_mem (s : State) (q : Request) : (s.present q).mem = s.mem := rfl
@[simp] theorem present_inputs (s : State) (q : Request) : (s.present q).inputs = ⟨false, true, q⟩ :: s.inputs := rfl
@[simp] theorem present_responses (s : State) (q : Request) : (s.present q).responses = s.responses := rfl

@[simp] theorem reset_mem : State.reset.mem = [] := rfl
@[simp] theorem reset_inputs : State.reset.inputs = [] := rfl
@[simp] theorem reset_responses : State.reset.responses = [] := rfl

@[simp] theorem respond_lastResponse (s : State) (r : Response) : (s.respond r).lastResponse = some r := by
  simp [State.lastResponse]

end Sys2Proof.Machine
end

