-- ==== Sys2Proof/Laws/Ops.lean ====
section
/-! SUPPORT. What each shared operation can do, said once: the operand forms, the accesses, and what any meaning answers. -/

namespace Sys2Proof.Machine

/-- Table and classifier agree that a register's view lies in the store (R153). -/
theorem addrOf_in_store : ∀ (r : RegCode) (a : Nat), addrOf r = some a → a + nbytes (sizeOfReg r) ≤ Config.memSize := by
  intro r a h
  have key : ∀ r : RegCode, ∀ a ∈ addrOf r, a + nbytes (sizeOfReg r) ≤ 4096 := by decide
  exact key r a h

theorem high_bits_zero (p : Bus) : p.extractLsb' 12 20 = 0#20 ↔ p.toNat ≤ 4095 := by
  have hlt := p.isLt
  rw [← BitVec.toNat_inj]
  simp [Nat.shiftRight_eq_div_pow]
  omega

/-- The Byte range test, in numbers (R10). -/
@[simp] theorem inRange_byte (p : Bus) : inRange p .byte = decide (p.toNat ≤ 4095) := by
  by_cases h : p.toNat ≤ 4095 <;> simp [inRange, high_bits_zero, h]

/-- The Word range test, in numbers (R10). -/
@[simp] theorem inRange_word (p : Bus) : inRange p .word = decide (p.toNat ≤ 4094) := by
  have hlow : p.extractLsb' 0 12 = 0xFFF#12 ↔ p.toNat % 4096 = 4095 := by
    rw [← BitVec.toNat_inj]
    simp
  rw [Bool.eq_iff_iff]
  simp only [inRange, Bool.and_eq_true, beq_iff_eq, bne_iff_ne, ne_eq, high_bits_zero, hlow, decide_eq_true_iff]
  omega

/-- The range test keeps an access of `n` cells inside `[0, 4096)`. -/
theorem inRange_in_store {p : Bus} {sz : Size} (h : inRange p sz = true) : p.toNat + nbytes sz ≤ Config.memSize := by
  cases sz <;> simp [nbytes, Config.memSize] at h ⊢ <;> omega

/-- A response-only ending of a command. -/
def Answers (s t : State) (r : Response) : Prop :=
  t.mem = s.mem ∧ t.inputs = s.inputs ∧ t.responses = s.responses ++ [r]

/-- A storing ending of a command: `n` cells inside the store, answered with 0. -/
def Stores (s t : State) : Prop :=
  ∃ p sz v, p + nbytes sz ≤ Config.memSize ∧ t.mem = s.mem.store p sz v ∧ t.inputs = s.inputs ∧
    t.responses = s.responses ++ [.ok 0]

theorem rawRead_answers (s : State) (p : Bus) (sz : Size) :
    Answers s (s.rawRead p sz) (if inRange p sz then .ok (s.mem.load p.toNat sz) else .fail .outOfBounds) := by
  unfold State.rawRead
  split <;> exact ⟨rfl, rfl, rfl⟩

theorem regRead_answers (s : State) (r : RegCode) :
    Answers s (s.regRead r)
      (match addrOf r with | some a => .ok (s.mem.load a (sizeOfReg r)) | none => .fail .unknownRegister) := by
  unfold State.regRead
  cases addrOf r <;> exact ⟨rfl, rfl, rfl⟩

theorem rawWrite_cases (s : State) (p : Bus) (sz : Size) (v : Bus) :
    (inRange p sz = true ∧ Stores s (s.rawWrite p sz v)) ∨
      (inRange p sz = false ∧ Answers s (s.rawWrite p sz v) (.fail .outOfBounds)) := by
  unfold State.rawWrite
  split
  · next h => exact .inl ⟨h, p.toNat, sz, v, inRange_in_store h, rfl, rfl, rfl⟩
  · next h => exact .inr ⟨by simpa using h, rfl, rfl, rfl⟩

theorem regWrite_cases (s : State) (r : RegCode) (v : Bus) :
    Stores s (s.regWrite r v) ∨ Answers s (s.regWrite r v) (.fail .unknownRegister) := by
  unfold State.regWrite
  split
  · next a h => exact .inl ⟨a, sizeOfReg r, v, addrOf_in_store r a h, rfl, rfl, rfl⟩
  · exact .inr ⟨rfl, rfl, rfl⟩

/-- A command that answers without storing, or stores inside the store: nothing else can happen. -/
def Ends (s t : State) : Prop := Stores s t ∨ ∃ r, Answers s t r

theorem exec_ends (i : Instr) (s : State) : ∃ t, exec i s = .next t ∧ Ends s t := by
  cases i with
  | addrof r =>
    simp only [exec, execAddrof]
    split <;> exact ⟨_, rfl, .inr ⟨_, rfl, rfl, rfl⟩⟩
  | sizeof r => exact ⟨_, rfl, .inr ⟨_, rfl, rfl, rfl⟩⟩
  | rdB p => exact ⟨_, rfl, .inr ⟨_, rawRead_answers s p .byte⟩⟩
  | rdW p => exact ⟨_, rfl, .inr ⟨_, rawRead_answers s p .word⟩⟩
  | wrB p v => exact ⟨_, rfl, (rawWrite_cases s p .byte v).imp And.right (fun h => ⟨_, h.2⟩)⟩
  | wrW p v => exact ⟨_, rfl, (rawWrite_cases s p .word v).imp And.right (fun h => ⟨_, h.2⟩)⟩
  | rdreg r => exact ⟨_, rfl, .inr ⟨_, regRead_answers s r⟩⟩
  | wrreg r v => exact ⟨_, rfl, (regWrite_cases s r v).imp_right (fun h => ⟨_, h⟩)⟩
  | hfind n => exact ⟨_, rfl, .inr ⟨_, rfl, rfl, rfl⟩⟩
  | halloc n => exact ⟨_, rfl, .inr ⟨_, rfl, rfl, rfl⟩⟩
  | hfree a => exact ⟨_, rfl, .inr ⟨_, rfl, rfl, rfl⟩⟩

theorem runRequest_ends (q : Request) (s : State) : ∃ t, runRequest q s = .next t ∧ Ends s t := by
  unfold runRequest
  split
  · exact exec_ends _ s
  · exact ⟨_, rfl, .inr ⟨_, rfl, rfl, rfl⟩⟩

end Sys2Proof.Machine
end

