-- ==== Sys2Proof/Laws/Exec.lean ====
section
/-! SUPPORT. Every command at once: the response it gives and the store it leaves, as two functions of the command and the state, and the equations of `exec` and `runRequest` that later proofs cite instead of unfolding the meanings. -/

namespace Sys2Proof.Machine

/-- The response of a command. -/
def answer (i : Instr) (m : Memory) : Response :=
  match i with
  | .addrof r => (addrOf r).elim (.fail .unknownRegister) (fun a => .ok (BitVec.ofNat 32 a))
  | .sizeof r => .ok (sizeTag (sizeOfReg r))
  | .rdB p => if p.toNat ≤ 4095 then .ok (m.load p.toNat .byte) else .fail .outOfBounds
  | .rdW p => if p.toNat ≤ 4094 then .ok (m.load p.toNat .word) else .fail .outOfBounds
  | .wrB p _ => if p.toNat ≤ 4095 then .ok 0 else .fail .outOfBounds
  | .wrW p _ => if p.toNat ≤ 4094 then .ok 0 else .fail .outOfBounds
  | .rdreg r => (addrOf r).elim (.fail .unknownRegister) (fun a => .ok (m.load a (sizeOfReg r)))
  | .wrreg r _ => (addrOf r).elim (.fail .unknownRegister) (fun _ => .ok 0)
  | .hfind _ | .halloc _ | .hfree _ => .fail .unimplementedOperation

/-- The store a command leaves. -/
def storeAfter (i : Instr) (m : Memory) : Memory :=
  match i with
  | .wrB p v => if p.toNat ≤ 4095 then m.store p.toNat .byte v else m
  | .wrW p v => if p.toNat ≤ 4094 then m.store p.toNat .word v else m
  | .wrreg r v => (addrOf r).elim m (fun a => m.store a (sizeOfReg r) v)
  | .addrof _ | .sizeof _ | .rdB _ | .rdW _ | .rdreg _ | .hfind _ | .halloc _ | .hfree _ => m

theorem exec_eq (i : Instr) (s : State) :
    exec i s = .next { s with mem := storeAfter i s.mem, responses := s.responses ++ [answer i s.mem] } := by
  cases i with
  | addrof r => simp only [exec, execAddrof, answer, storeAfter]; cases addrOf r <;> rfl
  | sizeof r => rfl
  | rdB p => simp only [exec, execRdB, State.rawRead, answer, inRange_byte, decide_eq_true_eq]; split <;> rfl
  | rdW p => simp only [exec, execRdW, State.rawRead, answer, inRange_word, decide_eq_true_eq]; split <;> rfl
  | wrB p v =>
    simp only [exec, execWrB, State.rawWrite, answer, storeAfter, inRange_byte, decide_eq_true_eq]; split <;> rfl
  | wrW p v =>
    simp only [exec, execWrW, State.rawWrite, answer, storeAfter, inRange_word, decide_eq_true_eq]; split <;> rfl
  | rdreg r => simp only [exec, execRdreg, State.regRead, answer]; cases addrOf r <;> rfl
  | wrreg r v => simp only [exec, execWrreg, State.regWrite, answer, storeAfter]; cases addrOf r <;> rfl
  | hfind n => rfl
  | halloc n => rfl
  | hfree a => rfl

/-- The response of a request. -/
def requestAnswer (q : Request) (m : Memory) : Response :=
  match decode q with
  | .command i => answer i m
  | .illegal => .fail .illegalCommand

/-- The store a request leaves. -/
def requestStore (q : Request) (m : Memory) : Memory :=
  match decode q with
  | .command i => storeAfter i m
  | .illegal => m

theorem runRequest_eq (q : Request) (s : State) :
    runRequest q s =
      .next { s with mem := requestStore q s.mem, responses := s.responses ++ [requestAnswer q s.mem] } := by
  unfold runRequest requestAnswer requestStore
  cases decode q with
  | command i => exact exec_eq i s
  | illegal => rfl

/-- An access with a register code finds the literal place of its view, or none. -/
theorem addrOf_none_iff (r : RegCode) : addrOf r = none ↔ 18 ≤ r.toNat := by
  revert r
  decide

end Sys2Proof.Machine
end

