-- ==== Sys2Proof/Laws/PerInstr.lean ====
section
/-! SUPPORT. A statement made per command, one lemma per constructor: the command word that `encode` writes, from the column of bit patterns of spec/30_encoding.md R82, is well formed by the clauses of R89. -/

namespace Sys2Proof.Laws

/-- The encoder's command word meets every clause of R89. -/
def EncodesLegal.Statement (i : Instr) : Prop := (cmdFields (encode i).cmd).wellFormed = true

theorem EncodesLegal.addrof (r : RegCode) : Statement (.addrof r) := by
  simp [Statement, encode, instrFields, CmdFields.wellFormed, CmdFields.opDefined, CmdFields.z1Zero, CmdFields.z0Zero,
    CmdFields.sizeAllowed, CmdFields.regAllowed]
theorem EncodesLegal.sizeof (r : RegCode) : Statement (.sizeof r) := by
  simp [Statement, encode, instrFields, CmdFields.wellFormed, CmdFields.opDefined, CmdFields.z1Zero, CmdFields.z0Zero,
    CmdFields.sizeAllowed, CmdFields.regAllowed]
theorem EncodesLegal.rdB (p : Bus) : Statement (.rdB p) := by
  simp [Statement, encode, instrFields, CmdFields.wellFormed, CmdFields.opDefined, CmdFields.z1Zero, CmdFields.z0Zero,
    CmdFields.sizeAllowed, CmdFields.regAllowed]
theorem EncodesLegal.rdW (p : Bus) : Statement (.rdW p) := by
  simp [Statement, encode, instrFields, CmdFields.wellFormed, CmdFields.opDefined, CmdFields.z1Zero, CmdFields.z0Zero,
    CmdFields.sizeAllowed, CmdFields.regAllowed]
theorem EncodesLegal.wrB (p v : Bus) : Statement (.wrB p v) := by
  simp [Statement, encode, instrFields, CmdFields.wellFormed, CmdFields.opDefined, CmdFields.z1Zero, CmdFields.z0Zero,
    CmdFields.sizeAllowed, CmdFields.regAllowed]
theorem EncodesLegal.wrW (p v : Bus) : Statement (.wrW p v) := by
  simp [Statement, encode, instrFields, CmdFields.wellFormed, CmdFields.opDefined, CmdFields.z1Zero, CmdFields.z0Zero,
    CmdFields.sizeAllowed, CmdFields.regAllowed]
theorem EncodesLegal.rdreg (r : RegCode) : Statement (.rdreg r) := by
  simp [Statement, encode, instrFields, CmdFields.wellFormed, CmdFields.opDefined, CmdFields.z1Zero, CmdFields.z0Zero,
    CmdFields.sizeAllowed, CmdFields.regAllowed]
theorem EncodesLegal.wrreg (r : RegCode) (v : Bus) : Statement (.wrreg r v) := by
  simp [Statement, encode, instrFields, CmdFields.wellFormed, CmdFields.opDefined, CmdFields.z1Zero, CmdFields.z0Zero,
    CmdFields.sizeAllowed, CmdFields.regAllowed]
theorem EncodesLegal.hfind (n : Bus) : Statement (.hfind n) := by
  simp [Statement, encode, instrFields, CmdFields.wellFormed, CmdFields.opDefined, CmdFields.z1Zero, CmdFields.z0Zero,
    CmdFields.sizeAllowed, CmdFields.regAllowed]
theorem EncodesLegal.halloc (n : Bus) : Statement (.halloc n) := by
  simp [Statement, encode, instrFields, CmdFields.wellFormed, CmdFields.opDefined, CmdFields.z1Zero, CmdFields.z0Zero,
    CmdFields.sizeAllowed, CmdFields.regAllowed]
theorem EncodesLegal.hfree (a : Bus) : Statement (.hfree a) := by
  simp [Statement, encode, instrFields, CmdFields.wellFormed, CmdFields.opDefined, CmdFields.z1Zero, CmdFields.z0Zero,
    CmdFields.sizeAllowed, CmdFields.regAllowed]

end Sys2Proof.Laws
end

