-- ==== Sys2Proof/Laws/Step.lean ====
section
/-! SUPPORT. What one step does with each kind of presentation of the input ports. -/

namespace Sys2Proof.Machine

theorem step_nothing_presented {s : State} (h : s.inputs = []) : step s = .next s := by
  unfold step
  rw [h]

theorem step_takes_head {s : State} {p : PortIn} {rest : List PortIn} (h : s.inputs = p :: rest) :
    step s = acceptInput p { s with inputs := rest } := by
  unfold step
  rw [h]

theorem acceptInput_reset {p : PortIn} (s : State) (h : p.rst = true) : acceptInput p s = .next s.resetBlock := by
  simp [acceptInput, h]

theorem acceptInput_idle {p : PortIn} (s : State) (hr : p.rst = false) (hv : p.reqValid = false) :
    acceptInput p s = .next s := by
  simp [acceptInput, hr, hv]

theorem acceptInput_request {p : PortIn} (s : State) (hr : p.rst = false) (hv : p.reqValid = true) :
    acceptInput p s = runRequest p.req s := by
  simp [acceptInput, hr, hv]

end Sys2Proof.Machine
end

