-- ==== Sys2Proof/Laws/Run.lean ====
section
/-! SUPPORT. One presentation of the input ports as a function of the state, and the equations of a run, which later proofs cite instead of unfolding the host's run. -/

namespace Sys2Proof.Machine

/-- The state after one presentation of the input ports. -/
def afterInput (p : PortIn) (s : State) : State :=
  if p.rst then s.resetBlock
  else if p.reqValid then
    { s with mem := requestStore p.req s.mem, responses := s.responses ++ [requestAnswer p.req s.mem] }
  else s

theorem acceptInput_eq (p : PortIn) (s : State) : acceptInput p s = .next (afterInput p s) := by
  unfold acceptInput afterInput
  split
  · rfl
  · split
    · exact runRequest_eq _ _
    · rfl

@[simp] theorem afterInput_inputs (p : PortIn) (s : State) : (afterInput p s).inputs = s.inputs := by
  unfold afterInput
  split
  · rfl
  · split <;> rfl

/-- One step of a run of any machine. -/
theorem run_next {M : Host.Core} {s t : M.State} (h : M.step s = .next t) (k : Nat) : M.run (k + 1) s = M.run k t := by
  simp only [Host.Core.run, h]

theorem runAll_nil {s : State} (h : s.inputs = []) : s.runAll = .next s := by
  unfold State.runAll
  rw [h]
  rfl

theorem runAll_cons {s : State} {p : PortIn} {rest : List PortIn} (h : s.inputs = p :: rest) :
    s.runAll = (afterInput p { s with inputs := rest }).runAll := by
  have hstep : Sys2Proof.core.step s = .next (afterInput p { s with inputs := rest }) :=
    (step_takes_head h).trans (acceptInput_eq _ _)
  unfold State.runAll
  rw [h, List.length_cons, afterInput_inputs]
  exact run_next hstep rest.length

end Sys2Proof.Machine
end

