-- ==== Sys2Proof/Tests/Slice0.lean ====
section
/-! SUPPORT. The model's own tests. Expected words and values are those of the spec's tables (spec/30_encoding.md sections 2 and 7) and test vectors (spec/95_test_vectors.md), written out by hand; the witnesses show states and operands that meet the premises of the statements. -/

namespace Sys2Proof.Tests

open Sys2Proof.Machine

/-- A state with these cells, nothing presented and nothing answered. -/
def st (m : Memory) : State := { mem := m, inputs := [], responses := [] }

/-- A presentation of a request. -/
def req (cmd : CmdWord) (addr wdata : Bus) : PortIn := ⟨false, true, ⟨cmd, addr, wdata⟩⟩

/-- A presentation of `rst`. -/
def rst : PortIn := ⟨true, false, ⟨0, 0, 0⟩⟩

/-- The answer of a step that went on. -/
def answered : Host.Outcome State Fault Refusal → Option Response
  | .next t => t.lastResponse
  | .fault _ | .refused _ => none

/-- The cells a step that went on leaves. -/
def cells : Host.Outcome State Fault Refusal → Option Memory
  | .next t => some t.mem
  | .fault _ | .refused _ => none

/-! ## WellFormed: an ill-formed command word for each check, which the check refuses -/

theorem test_undefined_op_is_refused :
    CmdFields.opDefined ⟨0x7, 0, 0, 0, 0⟩ = false ∧ CmdFields.wellFormed ⟨0x7, 0, 0, 0, 0⟩ = false := by decide

theorem test_z1_is_refused :
    CmdFields.z1Zero ⟨0x1, 1, 0, 0, 0⟩ = false ∧ CmdFields.wellFormed ⟨0x1, 1, 0, 0, 0⟩ = false := by decide

theorem test_z0_is_refused :
    CmdFields.z0Zero ⟨0x1, 0, 0, 1, 0⟩ = false ∧ CmdFields.wellFormed ⟨0x1, 0, 0, 1, 0⟩ = false := by decide

theorem test_size_is_refused :
    CmdFields.sizeAllowed ⟨0x5, 0, 1, 0, 8⟩ = false ∧ CmdFields.wellFormed ⟨0x5, 0, 1, 0, 8⟩ = false := by decide

theorem test_register_is_refused :
    CmdFields.regAllowed ⟨0x3, 0, 0, 0, 1⟩ = false ∧ CmdFields.wellFormed ⟨0x3, 0, 0, 0, 1⟩ = false := by decide

theorem test_legal_fields_are_accepted :
    CmdFields.wellFormed ⟨0x3, 0, 1, 0, 0⟩ = true ∧ CmdFields.wellFormed ⟨0x6, 0, 0, 0, 31⟩ = true := by decide

/-! ## Decode: one word for each command, its bits written out field by field -/

theorem test_decode_addrof : decode ⟨0b0001000000010010#16, 0xFFFFFFFF, 0x12345678⟩ = .command (.addrof 18) := by decide
theorem test_decode_sizeof : decode ⟨0b0010000000010001#16, 0, 0⟩ = .command (.sizeof 17) := by decide
theorem test_decode_rdB : decode ⟨0b0011000000000000#16, 5, 0xDEADBEEF⟩ = .command (.rdB 5) := by decide
theorem test_decode_rdW : decode ⟨0b0011000100000000#16, 0xFFE, 0⟩ = .command (.rdW 4094) := by decide
theorem test_decode_wrB : decode ⟨0b0100000000000000#16, 3, 0xC8⟩ = .command (.wrB 3 200) := by decide
theorem test_decode_wrW : decode ⟨0b0100000100000000#16, 0, 0x1234⟩ = .command (.wrW 0 0x1234) := by decide
theorem test_decode_rdreg : decode ⟨0b0101000000001000#16, 7, 7⟩ = .command (.rdreg 8) := by decide
theorem test_decode_wrreg : decode ⟨0b0110000000000111#16, 9, 0x7F⟩ = .command (.wrreg 7 127) := by decide
theorem test_decode_hfind : decode ⟨0b1000000000000000#16, 16, 1⟩ = .command (.hfind 16) := by decide
theorem test_decode_halloc : decode ⟨0b1001000000000000#16, 64, 1⟩ = .command (.halloc 64) := by decide
theorem test_decode_hfree : decode ⟨0b1010000000000000#16, 5000, 1⟩ = .command (.hfree 5000) := by decide

theorem test_decode_illegal_ops :
    decode ⟨0x0000, 0, 0⟩ = .illegal ∧ decode ⟨0xB000, 0, 0⟩ = .illegal ∧ decode ⟨0xC000, 0, 0⟩ = .illegal ∧
    decode ⟨0xD000, 0, 0⟩ = .illegal ∧ decode ⟨0xE000, 0, 0⟩ = .illegal ∧ decode ⟨0xF000, 0, 0⟩ = .illegal := by decide

theorem test_decode_illegal_fields :
    decode ⟨0x1200, 0, 0⟩ = .illegal ∧ decode ⟨0x1020, 0, 0⟩ = .illegal ∧ decode ⟨0x1100, 0, 0⟩ = .illegal ∧
    decode ⟨0x5108, 0, 0⟩ = .illegal ∧ decode ⟨0x4108, 0, 0⟩ = .illegal ∧ decode ⟨0x8100, 0, 0⟩ = .illegal ∧
    decode ⟨0xA001, 0, 0⟩ = .illegal ∧ decode ⟨0xFFFF, 0, 0⟩ = .illegal := by decide

/-- The encoder writes the words of the examples of spec/30_encoding.md section 7. -/
theorem test_encode_words :
    encode (.rdreg 8) = ⟨0x5008, 0, 0⟩ ∧ encode (.wrreg 7 0x7F) = ⟨0x6007, 0, 0x7F⟩ ∧
    encode (.rdW 4094) = ⟨0x3100, 0xFFE, 0⟩ ∧ encode (.halloc 64) = ⟨0x9000, 0x40, 0⟩ := by decide

/-- `WRREG DH, 0x7F` as one number, and the shorter number whose buses are 0. -/
theorem test_table_word :
    decodeTableWord 80 (0x6007 + 0x7F * 2 ^ 48) = some (.wrreg 7 0x7F) ∧ decodeTableWord 16 0x6007 = some (.wrreg 7 0) ∧
    decodeTableWord 16 0x7000 = none := by decide

/-! ## Commands, on the spec's vectors -/

theorem test_addrof_edx_shares_dx : answered (exec (.addrof 15) (st [])) = some (.ok 12) := by decide
theorem test_addrof_unknown : answered (exec (.addrof 18) (st [])) = some (.fail .unknownRegister) := by decide
theorem test_sizeof_dx : answered (exec (.sizeof 11) (st [])) = some (.ok 1) := by decide
theorem test_sizeof_unknown : answered (exec (.sizeof 18) (st [])) = some (.ok 0) := by decide
theorem test_rdB_sign : answered (exec (.rdB 5) (st [(5, 0xC8)])) = some (.ok 0xFFFFFFC8) := by decide
theorem test_rdB_high_bits : answered (exec (.rdB 0x10000) (st [(0, 1)])) = some (.fail .outOfBounds) := by decide
theorem test_rdW_low_cell_unsigned : answered (exec (.rdW 8) (st [(9, 0x80)])) = some (.ok 0x80) := by decide
theorem test_rdW_odd : answered (exec (.rdW 9) (st [(9, 0xAB), (10, 0xCD)])) = some (.ok 0xFFFFABCD) := by decide
theorem test_wrB_truncates : cells (exec (.wrB 3 0x12345678) (st [])) = some [(3, 0x78)] := by decide
theorem test_wrB_no_wrap : cells (exec (.wrB 0x1000 0xAA) (st [(0, 0x11)])) = some [(0, 0x11)] := by decide
theorem test_wrW_straddles : cells (exec (.wrW 3 0xA1B2) (st [])) = some [(3, 0xA1), (4, 0xB2)] := by decide
theorem test_wrW_last_cell : cells (exec (.wrW 4095 0xBEEF) (st [(4095, 0x7F)])) = some [(4095, 0x7F)] := by decide
theorem test_rdreg_bx : answered (exec (.rdreg 9) (st [(4, 0x90), (5, 0x98)])) = some (.ok 0xFFFF9098) := by decide
theorem test_rdreg_ebx_one_cell : answered (exec (.rdreg 13) (st [(4, 0x90), (5, 0x98)])) = some (.ok 0xFFFFFF90) := by decide
theorem test_wrreg_dx : cells (exec (.wrreg 11 0xDEADBE4C) (st [])) = some [(12, 0xBE), (13, 0x4C)] := by decide
theorem test_wrreg_ebp_one_cell : cells (exec (.wrreg 17 0xDEADBE52) (st [])) = some [(20, 0x52)] := by decide
theorem test_hfind : answered (exec (.hfind 0xFFFFFFFF) (st [])) = some (.fail .unimplementedOperation) := by decide
theorem test_halloc : answered (exec (.halloc 4097) (st [])) = some (.fail .unimplementedOperation) := by decide
theorem test_hfree : answered (exec (.hfree 5000) (st [])) = some (.fail .unimplementedOperation) := by decide

/-! ## The port -/

theorem test_word_presented_after_reset_runs :
    cells (step (State.reset.withFetchWord 80 (0x6008 + 0x1234 * 2 ^ 48))) = some [(0, 0x12), (1, 0x34)] := by decide

theorem test_illegal_word_writes_nothing :
    step { st [(0, 7)] with inputs := [req 0x4108 0 0xFFFF] } =
      .next { st [(0, 7)] with responses := [.fail .illegalCommand] } := rfl

theorem test_reset_clears : step { st [(0, 7)] with inputs := [⟨true, true, ⟨0x4000, 0, 9⟩⟩] } = .next (st []) := rfl

/-! ## Witnesses: the premises of each statement met together, at the boundaries of their ranges -/

theorem witness_ResetLeavesEveryCellZero :
    4095 < 4096 ∧ (4095#32).toNat ≤ 4095 ∧ ¬ (4096#32).toNat ≤ 4095 ∧ (17#5).toNat ≤ 17 := by decide

theorem witness_StepKeepsTheStoreForm :
    StoreInv { st [(3, 1), (4095, 2)] with inputs := [req 0x4000 3 0] } ∧
    step { st [(3, 1), (4095, 2)] with inputs := [req 0x4000 3 0] } = .next { st [(4095, 2)] with responses := [.ok 0] } :=
  ⟨by unfold StoreInv; decide, rfl⟩

theorem witness_AssertingResetClearsTheStore :
    State.inputs { st [(3, 1)] with inputs := [rst, req 0x3000 3 0] } = rst :: [req 0x3000 3 0] ∧ rst.rst = true := by decide

theorem witness_IdlePortsHoldTheBlock :
    State.inputs { st [(3, 1)] with inputs := [⟨false, false, ⟨0x4000, 3, 9⟩⟩] } = [⟨false, false, ⟨0x4000, 3, 9⟩⟩] ∧
    State.inputs (st [(3, 1)]) = [] := by decide

theorem witness_StepRunsTheDecodedCommand :
    State.inputs { st [] with inputs := [⟨false, true, ⟨0x4000, 3, 9⟩⟩] } = [⟨false, true, ⟨0x4000, 3, 9⟩⟩] ∧
    decode ⟨0x4000, 3, 9⟩ = .command (.wrB 3 9) := by decide

theorem witness_PresentedWordRunsNext : decodeTableWord 80 (0x4100 + 4094 * 2 ^ 16) = some (.wrW 4094 0) := by decide

theorem witness_IllegalWordsAnswerIllegalCommand :
    State.inputs { st [] with inputs := [⟨false, true, ⟨0x3001, 0, 0⟩⟩] } = [⟨false, true, ⟨0x3001, 0, 0⟩⟩] ∧
    (cmdFields 0x3001).wellFormed = false := by decide

theorem witness_LegalWordsHaveOneSpelling : decode ⟨0x2012, 0, 0⟩ = .command (.sizeof 18) := by decide

theorem witness_AddrofAnswersTheTableOffset : (17#5).toNat ≤ 17 ∧ 18 ≤ (18#5).toNat := by decide

theorem witness_WriteByteStoresTheLowByte : (4095#32).toNat ≤ 4095 ∧ 4095 < (4096#32).toNat ∧ 0 ≠ (4095#32).toNat := by decide

theorem witness_WriteWordStoresBothBytes :
    (4094#32).toNat ≤ 4094 ∧ 4094 < (4095#32).toNat ∧ 0 ≠ (4094#32).toNat ∧ 0 ≠ (4094#32).toNat + 1 := by decide

theorem witness_ReadRegisterAnswersItsView : (17#5).toNat ≤ 17 ∧ 18 ≤ (18#5).toNat := by decide

theorem witness_WriteRegisterStoresIntoItsView :
    addrOf 17 = some 20 ∧ addrOf 8 = some 0 ∧ addrOf 11 = some 12 ∧ addrOf 7 = some 14 ∧ addrOf 12 = some 0 ∧
    18 ≤ (18#5).toNat := by decide

theorem witness_UnknownRegisterExactlyWhen :
    runRequest ⟨0x6012, 0, 1⟩ (st []) = .next { st [] with responses := [.fail .unknownRegister] } ∧
    runRequest ⟨0x5011, 0, 0⟩ (st []) = .next { st [] with responses := [.ok 0] } := ⟨rfl, rfl⟩

theorem witness_OutOfBoundsExactlyWhen :
    runRequest ⟨0x3100, 4095, 0⟩ (st []) = .next { st [] with responses := [.fail .outOfBounds] } ∧
    runRequest ⟨0x3000, 4095, 0⟩ (st []) = .next { st [] with responses := [.ok 0] } ∧
    runRequest ⟨0x4000, 4096, 1⟩ (st []) = .next { st [] with responses := [.fail .outOfBounds] } := ⟨rfl, rfl, rfl⟩

theorem witness_UnimplementedExactlyForHeapCommands :
    runRequest ⟨0xA000, 0, 0⟩ (st []) = .next { st [] with responses := [.fail .unimplementedOperation] } ∧
    runRequest ⟨0xB000, 0, 0⟩ (st []) = .next { st [] with responses := [.fail .illegalCommand] } := ⟨rfl, rfl⟩

theorem witness_FailingRequestChangesNothing :
    runRequest ⟨0x4100, 4095, 0xBEEF⟩ (st [(4095, 0x7F)]) =
      .next { st [(4095, 0x7F)] with responses := [] ++ [.fail .outOfBounds] } := rfl

theorem witness_OnlyWritesAndResetChangeCells :
    step { st [(3, 1)] with inputs := [req 0x4000 3 9] } = .next { st [(3, 9)] with responses := [.ok 0] } ∧
    Memory.read [(3, 9)] 3 ≠ Memory.read [(3, 1)] 3 ∧
    step { st [(3, 1)] with inputs := [rst] } = .next (st []) ∧ Memory.read [] 3 ≠ Memory.read [(3, 1)] 3 := ⟨rfl, by decide, rfl, by decide⟩

/-- Two lists that differ, outside the 4096 cells only. -/
theorem cells_agree : ∀ a : Nat, a < 4096 → Memory.read [(3, 1), (4096, 1)] a = Memory.read [(3, 1)] a := by
  intro a h
  simp [Memory.read, show ¬ 4096 = a by omega]

theorem witness_AnswerDependsOnTheCellsAlone :
    (∀ a : Nat, a < 4096 → (st [(3, 1), (4096, 1)]).mem.read a = (st [(3, 1)]).mem.read a) ∧
    st [(3, 1), (4096, 1)] ≠ st [(3, 1)] := ⟨cells_agree, by decide⟩

/-- Answers at the ends of their ranges. -/
theorem witness_ResultsStayInTheirRange :
    exec (.addrof 17) (st []) = .next { st [] with responses := [] ++ [.ok 20] } ∧
    exec (.sizeof 8) (st []) = .next { st [] with responses := [] ++ [.ok 1] } ∧
    exec (.rdB 0) (st [(0, 0x80)]) = .next { st [(0, 0x80)] with responses := [] ++ [.ok 0xFFFFFF80] } ∧
    exec (.rdW 0) (st [(0, 0x80)]) = .next { st [(0, 0x80)] with responses := [] ++ [.ok 0xFFFF8000] } ∧
    exec (.rdreg 12) (st [(0, 0x7F)]) = .next { st [(0, 0x7F)] with responses := [] ++ [.ok 0x7F] } ∧
    exec (.wrB 4095 0) (st []) = .next { st [] with responses := [] ++ [.ok 0] } ∧
    exec (.wrW 4094 0) (st []) = .next { st [] with responses := [] ++ [.ok 0] } ∧
    exec (.wrreg 8 0) (st []) = .next { st [] with responses := [] ++ [.ok 0] } := ⟨rfl, rfl, rfl, rfl, rfl, rfl, rfl, rfl⟩

theorem witness_CanonicalStoresAreUnique :
    Memory.wf [(3, 1), (4095, 2)] = true ∧
    ∀ a : Nat, a < 4096 → Memory.read [(3, 1), (4095, 2)] a = Memory.read [(3, 1), (4095, 2)] a :=
  ⟨by decide, fun _ _ => rfl⟩

/-- `AX` and `AL`; `EAX` and `BX`. -/
theorem witness_UnaliasedRegistersKeepTheirValue :
    ((8#5).toNat ≤ 17 ∧ (0#5).toNat ≤ 17 ∧ 8#5 ≠ 0#5 ∧ ¬ (8 ≤ (8#5).toNat ∧ (8#5).toNat ≤ 11 ∧ (0#5).toNat = (8#5).toNat + 4) ∧
      ¬ (8 ≤ (0#5).toNat ∧ (0#5).toNat ≤ 11 ∧ (8#5).toNat = (0#5).toNat + 4)) ∧
    ((12#5).toNat ≤ 17 ∧ (9#5).toNat ≤ 17 ∧ 12#5 ≠ 9#5 ∧ ¬ (8 ≤ (12#5).toNat ∧ (12#5).toNat ≤ 11 ∧ (9#5).toNat = (12#5).toNat + 4) ∧
      ¬ (8 ≤ (9#5).toNat ∧ (9#5).toNat ≤ 11 ∧ (12#5).toNat = (9#5).toNat + 4)) := by decide

theorem witness_WordRegisterSharesItsHighByte :
    (8 ≤ (8#5).toNat ∧ (8#5).toNat ≤ 11 ∧ (12#5).toNat = (8#5).toNat + 4) ∧
    (8 ≤ (11#5).toNat ∧ (11#5).toNat ≤ 11 ∧ (15#5).toNat = (11#5).toNat + 4) := by decide

theorem witness_ByteRoundTrip :
    (4095#32).toNat ≤ 4095 ∧ -128 ≤ (0xFFFFFF80#32).toInt ∧ (127#32).toInt ≤ 127 ∧ ¬ (128#32).toInt ≤ 127 := by decide

theorem witness_WordRoundTrip :
    (4094#32).toNat ≤ 4094 ∧ -32768 ≤ (0xFFFF8000#32).toInt ∧ (0x7FFF#32).toInt ≤ 32767 ∧ ¬ (0x8000#32).toInt ≤ 32767 := by decide

theorem witness_MixedWidthViews : (4094#32).toNat ≤ 4094 ∧ (4093#32).toNat ≤ 4093 := by decide

theorem witness_LaterWriteWinsOnTheSharedCell : (4093#32).toNat ≤ 4093 ∧ (4094#32).toNat ≤ 4094 := by decide

theorem witness_RegisterAccessIsTheComposition : (17#5).toNat ≤ 17 ∧ 18 ≤ (18#5).toNat := by decide

theorem witness_RawWordReachesHighAndLowNames :
    (14#32, 7#5, 3#5) ∈ [(2#32, 4#5, 0#5), (6#32, 5#5, 1#5), (10#32, 6#5, 2#5), (14#32, 7#5, 3#5)] := by decide

theorem witness_EveryInputIsTakenAndAnsweredOnce :
    State.inputs { st [] with inputs := [req 0 0 0, rst] } = req 0 0 0 :: [rst] ∧ (req 0 0 0).accepted = true ∧
    rst.accepted = false := by decide

/-- `WR.B 4095, 127` then `RD.W 4094`: requests that cannot fail. -/
theorem witness_RunsOfSoundRequestsAreFailureFree :
    State.failureFree { st [] with inputs := [req 0x4000 4095 127, req 0x3100 4094 0] } = true ∧
    ∀ p ∈ [req 0x4000 4095 127, req 0x3100 4094 0], p.accepted = true →
      ∃ i, decode p.req = .command i ∧ expectedFailure i = none := by
  refine ⟨by decide, fun p hp _ => ?_⟩
  rcases List.mem_cons.1 hp with rfl | hp
  · exact ⟨.wrB 4095 127, by decide, by decide⟩
  · rcases List.mem_singleton.1 hp with rfl
    exact ⟨.rdW 4094, by decide, by decide⟩

theorem witness_StepKeepsASoundRun :
    SoundRun { st [] with inputs := [req 0x4000 4095 127, req 0x3100 4094 0] } ∧
    step { st [] with inputs := [req 0x4000 4095 127, req 0x3100 4094 0] } =
      .next { st [(4095, 127)] with inputs := [req 0x3100 4094 0], responses := [.ok 0] } :=
  ⟨witness_RunsOfSoundRequestsAreFailureFree, rfl⟩

/-- `WR.B 3, 9` over a cell that holds 1: the run is to leave 9 there and 0 elsewhere. -/
theorem witness_StepKeepsWhatTheRunLeaves :
    (∀ a : Nat, (lastCovering [req 0x4000 3 9] a).getD (Memory.read [(3, 1)] a) = Memory.read [(3, 9)] a) ∧
    step { st [(3, 1)] with inputs := [req 0x4000 3 9] } = .next { st [(3, 9)] with responses := [.ok 0] } := by
  refine ⟨fun a => ?_, rfl⟩
  by_cases h : a = 3
  · subst h
    rfl
  · have hs : lastCovering [req 0x4000 3 9] a = none := by
      have hc : coveredBy a (req 0x4000 3 9) = none := if_neg h
      rw [lastCovering, List.reverse_singleton, List.findSome?_singleton, hc]
    rw [hs]
    simp [Memory.read, Ne.symm h]

theorem witness_RunsDependOnTheCellsAlone :
    State.inputs { st [(3, 1), (4096, 1)] with inputs := [req 0x3000 3 0] } =
      State.inputs { st [(3, 1)] with inputs := [req 0x3000 3 0] } ∧
    ∀ a : Nat, a < 4096 → Memory.read [(3, 1), (4096, 1)] a = Memory.read [(3, 1)] a := ⟨rfl, cells_agree⟩

theorem witness_ResetForgetsTheStore :
    State.inputs { st [(3, 1)] with inputs := [rst, req 0x3000 3 0] } = rst :: [req 0x3000 3 0] ∧
    State.inputs { st [(3, 2)] with inputs := [rst, req 0x3000 3 0] } = rst :: [req 0x3000 3 0] ∧ rst.rst = true := by decide

end Sys2Proof.Tests
end

/-! ## The state after reset (R24): every load is 0, so every read that is not refused answers 0 -/

namespace Sys2Proof.Machine

/-- Sign extension keeps 0, for one cell and for two (R8, R55). -/
@[simp] theorem load_nil (p : Nat) (sz : Size) : Memory.load [] p sz = 0#32 := by
  cases sz with
  | byte => exact (by decide : sextByte 0 = 0#32)
  | word => exact (by decide : sextWord 0 0 = 0#32)

/-- A command that leaves the empty store empty changes nothing of the reset state but the record of responses. -/
theorem exec_reset_of_storeAfter {i : Instr} (h : storeAfter i [] = []) :
    exec i State.reset = .next { State.reset with responses := [answer i []] } := by
  rw [exec_eq, reset_mem, h]
  rfl

theorem answer_rdB_nil (p : Bus) : answer (.rdB p) [] = if p.toNat ≤ 4095 then .ok 0#32 else .fail .outOfBounds := by
  rw [answer, load_nil]

theorem answer_rdreg_nil {r : RegCode} (h : r.toNat ≤ 17) : answer (.rdreg r) [] = .ok 0#32 := by
  have hview : addrOf r ≠ none := fun hnone => by
    have hcode := (addrOf_none_iff r).mp hnone
    omega
  obtain ⟨a, ha⟩ := Option.ne_none_iff_exists'.mp hview
  rw [answer, ha, Option.elim_some, load_nil]

/-- Settles O1: RD.B and RDREG store nothing, so `exec_reset_of_storeAfter` leaves only their answers over the empty store. -/
theorem resetLeavesEveryCellZero : Obligations.ResetLeavesEveryCellZero := by
  refine ⟨fun a _ => read_nil a, fun p => ?rdB, fun r hr => ?rdreg⟩
  case rdB => rw [exec_reset_of_storeAfter rfl, answer_rdB_nil]
  case rdreg => rw [exec_reset_of_storeAfter rfl, answer_rdreg_nil hr]

end Sys2Proof.Machine

/-! ## Raw accesses inside the store: each command by the cells it reaches, and views of mixed width (R11, R56) -/

namespace Sys2Proof.Machine

/-- Inside the store the position beside `p` does not wrap (R10, R51). -/
theorem toNat_add_one_of_le {p : Bus} (hp : p.toNat ≤ 4094) : (p + 1).toNat = p.toNat + 1 := by
  bv_omega

theorem exec_wrB_in_store {p : Bus} (hp : p.toNat ≤ 4095) (v : Bus) (s : State) :
    exec (.wrB p v) s = .next (s.writeAt p.toNat .byte v) := by
  rw [exec_eq, storeAfter, answer, if_pos hp, if_pos hp]
  rfl

theorem exec_wrW_in_store {p : Bus} (hp : p.toNat ≤ 4094) (v : Bus) (s : State) :
    exec (.wrW p v) s = .next (s.writeAt p.toNat .word v) := by
  rw [exec_eq, storeAfter, answer, if_pos hp, if_pos hp]
  rfl

/-- RD.B answers the cell at its position, sign-extended, and stores nothing (R120). -/
theorem exec_rdB_of_read {s : State} {p : Bus} {b : Byte} (hp : p.toNat ≤ 4095) (hb : s.mem.read p.toNat = b) :
    exec (.rdB p) s = .next { s with responses := s.responses ++ [.ok (b.signExtend 32)] } := by
  subst hb
  rw [exec_eq, answer, if_pos hp]
  rfl

/-- RD.W answers its two cells side by side, high byte first, sign-extended, and stores nothing (R121). -/
theorem exec_rdW_of_read {s : State} {p : Bus} {h l : Byte} (hp : p.toNat ≤ 4094) (hh : s.mem.read p.toNat = h)
    (hl : s.mem.read (p.toNat + 1) = l) :
    exec (.rdW p) s = .next { s with responses := s.responses ++ [.ok ((h ++ l).signExtend 32)] } := by
  subst hh hl
  rw [exec_eq, answer, if_pos hp]
  rfl

@[simp] theorem read_store_byte_same (m : Memory) (p : Nat) (v : Bus) : (m.store p .byte v).read p = lowByte v := by
  simp [read_store_byte]

@[simp] theorem read_store_word_high (m : Memory) (p : Nat) (v : Bus) : (m.store p .word v).read p = highByte v := by
  simp [read_store_word]

@[simp] theorem read_store_word_low (m : Memory) (p : Nat) (v : Bus) : (m.store p .word v).read (p + 1) = lowByte v := by
  simp [read_store_word]

/-- A Byte store leaves every other cell (R11). -/
theorem read_store_byte_other (m : Memory) {p x : Nat} (v : Bus) (h : x ≠ p) : (m.store p .byte v).read x = m.read x := by
  simp [read_store_byte, h]

/-- A Word store leaves every cell but its two (R11). -/
theorem read_store_word_other (m : Memory) {p x : Nat} (v : Bus) (hhigh : x ≠ p) (hlow : x ≠ p + 1) :
    (m.store p .word v).read x = m.read x := by
  simp [read_store_word, hhigh, hlow]

/-- R56, first sentence: a Byte read sees one half of a Word write. -/
theorem byte_reads_after_word_write (s : State) {p : Bus} (v : Bus) (hp : p.toNat ≤ 4094) :
    ∃ t, exec (.wrW p v) s = .next t ∧
      exec (.rdB p) t = .next { t with responses := t.responses ++ [.ok ((highByte v).signExtend 32)] } ∧
      exec (.rdB (p + 1)) t = .next { t with responses := t.responses ++ [.ok ((lowByte v).signExtend 32)] } := by
  have hnext := toNat_add_one_of_le hp
  refine ⟨_, exec_wrW_in_store hp v s, exec_rdB_of_read (by omega) ?high, exec_rdB_of_read (by omega) ?low⟩
  case high => rw [writeAt_mem, read_store_word_high]
  case low => rw [writeAt_mem, hnext, read_store_word_low]

/-- R56, second sentence: a Word read puts two Byte writes side by side; the later of them leaves the cell of the first. -/
theorem word_read_after_byte_writes (s : State) {p : Bus} (a b : Bus) (hp : p.toNat ≤ 4094) :
    ∃ t u, exec (.wrB p a) s = .next t ∧ exec (.wrB (p + 1) b) t = .next u ∧
      exec (.rdW p) u = .next { u with responses := u.responses ++ [.ok ((lowByte a ++ lowByte b).signExtend 32)] } := by
  have hnext := toNat_add_one_of_le hp
  refine ⟨_, _, exec_wrB_in_store (by omega) a s, exec_wrB_in_store (by omega) b _, exec_rdW_of_read hp ?first ?second⟩
  case first => rw [writeAt_mem, hnext, read_store_byte_other _ _ (by omega), writeAt_mem, read_store_byte_same]
  case second => rw [writeAt_mem, hnext, read_store_byte_same]

/-- R56, third sentence: the Word at `p + 1` has the low byte of the Word at `p` for its high byte, and a cell that the write
left for its low byte. -/
theorem word_read_beside_word_write (s : State) {p : Bus} (v : Bus) (hp : p.toNat ≤ 4093) :
    ∃ t, exec (.wrW p v) s = .next t ∧
      exec (.rdW (p + 1)) t =
        .next { t with responses := t.responses ++ [.ok ((lowByte v ++ s.mem.read (p.toNat + 2)).signExtend 32)] } := by
  have hnext : (p + 1).toNat = p.toNat + 1 := toNat_add_one_of_le (by omega)
  refine ⟨_, exec_wrW_in_store (by omega) v s, exec_rdW_of_read (by omega) ?shared ?beyond⟩
  case shared => rw [writeAt_mem, hnext, read_store_word_low]
  case beyond => rw [writeAt_mem, hnext, read_store_word_other _ _ (by omega) (by omega)]

/-- Settles O38: one lemma for each sentence of R56, the obligation writing `highByte` and `lowByte` out. -/
theorem mixedWidthViews : Obligations.MixedWidthViews :=
  ⟨fun s _ v hp => byte_reads_after_word_write s v hp, fun s _ a b hp => word_read_after_byte_writes s a b hp,
    fun s _ v hp => word_read_beside_word_write s v hp⟩

end Sys2Proof.Machine

/-! ## ADDROF: the word of a command with a register operand, and the literal table's offset (R82, R110, R111) -/

namespace Sys2Proof

/-- Beside a pattern with an empty `reg` field a register code fills that field alone (R82, R84). -/
theorem regField_or_setWidth {c : CmdWord} (hc : regField c = 0#5) (r : RegCode) : regField (c ||| r.setWidth 16) = r := by
  have hcode : regField (r.setWidth 16) = r := by
    apply BitVec.eq_of_getLsbD_eq
    intro i hi
    simp [regField, hi, show i < 16 by omega]
  calc regField (c ||| r.setWidth 16)
      = regField c ||| regField (r.setWidth 16) := BitVec.extractLsb'_or
    _ = r := by rw [hc, hcode, BitVec.zero_or]

/-- A register code does not reach bits 15..5 of the command word (R82, R84). -/
theorem upper_or_setWidth (c : CmdWord) (r : RegCode) : upper (c ||| r.setWidth 16) = upper c := by
  have hcode : upper (r.setWidth 16) = 0#11 := by
    apply BitVec.eq_of_getLsbD_eq
    intro i _
    simp [upper]
  calc upper (c ||| r.setWidth 16)
      = upper c ||| upper (r.setWidth 16) := BitVec.extractLsb'_or
    _ = upper c := by rw [hcode, BitVec.or_zero]

/-- ADDROF is the first row: the upper bits of its word select it, and neither bus is read (R82, R110). -/
theorem decode_addrof_word (r : RegCode) (addr wdata : Bus) :
    decode ⟨0x1000#16 ||| r.setWidth 16, addr, wdata⟩ = .command (.addrof r) := by
  have hupper : upper (0x1000#16 ||| r.setWidth 16) = 0x80#11 := upper_or_setWidth 0x1000#16 r
  have hreg : regField (0x1000#16 ||| r.setWidth 16) = r := regField_or_setWidth rfl r
  rw [decode_eq, if_pos hupper, hreg]

end Sys2Proof

namespace Sys2Proof.Machine

/-- The model's lookup agrees with the spec's printed table on every code that names a register (R27, R111). -/
theorem addrOf_eq_literalOffset : ∀ {r : RegCode}, r.toNat ≤ 17 → addrOf r = some (literalOffset r) := by
  decide

/-- ADDROF stores nothing, so its answer is all that a step of it adds (R23, R110). -/
theorem exec_addrof (r : RegCode) (s : State) :
    exec (.addrof r) s = .next { s with responses := s.responses ++ [answer (.addrof r) s.mem] } :=
  exec_eq (.addrof r) s

theorem answer_addrof_of_register {r : RegCode} (h : r.toNat ≤ 17) (m : Memory) :
    answer (.addrof r) m = .ok (BitVec.ofNat 32 (literalOffset r)) := by
  rw [answer, addrOf_eq_literalOffset h, Option.elim_some]

theorem answer_addrof_of_no_register {r : RegCode} (h : 18 ≤ r.toNat) (m : Memory) :
    answer (.addrof r) m = .fail .unknownRegister := by
  rw [answer, (addrOf_none_iff r).mpr h, Option.elim_none]

/-- Settles O15: the decoded word, then `exec_addrof` with the answer of each of the two ranges of register codes. -/
theorem addrofAnswersTheTableOffset : Obligations.AddrofAnswersTheTableOffset := by
  refine ⟨decode_addrof_word, fun s r hr => ?register, fun s r hr => ?no_register⟩
  case register => rw [exec_addrof, answer_addrof_of_register hr]
  case no_register => rw [exec_addrof, answer_addrof_of_no_register hr]

end Sys2Proof.Machine

/-! ## RD.B, RD.W and WR.B at every position: what a command adds that leaves the store as it was (R120, R121, R122) -/

namespace Sys2Proof

/-- Which row a word without a register operand selects is a test on that literal alone, so it evaluates; the buses only fill
the operands (R82, R92). -/
theorem decode_rdB_word (p wdata : Bus) : decode ⟨0x3000, p, wdata⟩ = .command (.rdB p) := rfl

theorem decode_rdW_word (p wdata : Bus) : decode ⟨0x3100, p, wdata⟩ = .command (.rdW p) := rfl

theorem decode_wrB_word (p v : Bus) : decode ⟨0x4000, p, v⟩ = .command (.wrB p v) := rfl

end Sys2Proof

namespace Sys2Proof.Machine

/-- A command that leaves the store as it was adds its response and nothing else (R23, R178). -/
theorem exec_of_store_kept {i : Instr} {s : State} {r : Response} (hstore : storeAfter i s.mem = s.mem)
    (hanswer : answer i s.mem = r) : exec i s = .next { s with responses := s.responses ++ [r] } := by
  rw [exec_eq, hstore, hanswer]

theorem exec_rdB_out_of_store {p : Bus} (hp : ¬ p.toNat ≤ 4095) (s : State) :
    exec (.rdB p) s = .next { s with responses := s.responses ++ [.fail .outOfBounds] } :=
  exec_of_store_kept rfl (if_neg hp)

theorem exec_rdW_out_of_store {p : Bus} (hp : ¬ p.toNat ≤ 4094) (s : State) :
    exec (.rdW p) s = .next { s with responses := s.responses ++ [.fail .outOfBounds] } :=
  exec_of_store_kept rfl (if_neg hp)

theorem exec_wrB_out_of_store {p : Bus} (hp : ¬ p.toNat ≤ 4095) (v : Bus) (s : State) :
    exec (.wrB p v) s = .next { s with responses := s.responses ++ [.fail .outOfBounds] } :=
  exec_of_store_kept (if_neg hp) (if_neg hp)

/-- Settles O17: the position is in the store, where `exec_rdB_of_read` names the cell, or it is not. -/
theorem readByteAnswersTheSignedCell : Obligations.ReadByteAnswersTheSignedCell := by
  refine ⟨decode_rdB_word, fun s p => ?_⟩
  split
  case isTrue hp => exact exec_rdB_of_read hp rfl
  case isFalse hp => exact exec_rdB_out_of_store hp s

/-- Settles O18: the pair is in the store, where `exec_rdW_of_read` names its two cells, or it is not. -/
theorem readWordAnswersTheSignedPair : Obligations.ReadWordAnswersTheSignedPair := by
  refine ⟨decode_rdW_word, fun s p => ?_⟩
  split
  case isTrue hp => exact exec_rdW_of_read hp rfl rfl
  case isFalse hp => exact exec_rdW_out_of_store hp s

/-- Settles O19: inside the store the step is `writeAt`, whose cells the laws of a Byte store give, the obligation writing
`lowByte` out; outside it the store is kept. -/
theorem writeByteStoresTheLowByte : Obligations.WriteByteStoresTheLowByte := by
  refine ⟨decode_wrB_word, fun s p v hp => ?in_store, fun s p v hp => exec_wrB_out_of_store (Nat.not_le.mpr hp) v s⟩
  case in_store =>
    refine ⟨_, exec_wrB_in_store hp v s, ?stored, fun a ha => ?frame, writeAt_inputs .., writeAt_responses ..⟩
    case stored => exact read_store_byte_same s.mem p.toNat v
    case frame => exact read_store_byte_other s.mem v ha

end Sys2Proof.Machine

/-! ## SIZEOF: its word, and the size tag of every register code (R31, R82, R140) -/

namespace Sys2Proof

/-- SIZEOF is the second row: the upper bits of its word are not ADDROF's, and neither bus is read (R82, R140). -/
theorem decode_sizeof_word (r : RegCode) (addr wdata : Bus) :
    decode ⟨0x2000#16 ||| r.setWidth 16, addr, wdata⟩ = .command (.sizeof r) := by
  have hupper : upper (0x2000#16 ||| r.setWidth 16) = 0x100#11 := upper_or_setWidth 0x2000#16 r
  have hreg : regField (0x2000#16 ||| r.setWidth 16) = r := regField_or_setWidth rfl r
  rw [decode_eq, hupper, hreg, if_neg (by decide), if_pos rfl]

end Sys2Proof

namespace Sys2Proof.Machine

/-- The classifier's fallthrough reaches `Unknown` and the codes above it too: every code has a tag (R31, R140). -/
theorem sizeTag_sizeOfReg (r : RegCode) :
    sizeTag (sizeOfReg r) = if 8 ≤ r.toNat ∧ r.toNat ≤ 11 then 1#32 else 0#32 := by
  unfold sizeOfReg
  split
  case isTrue => rfl
  case isFalse => rfl

theorem answer_sizeof (r : RegCode) (m : Memory) :
    answer (.sizeof r) m = .ok (if 8 ≤ r.toNat ∧ r.toNat ≤ 11 then 1#32 else 0#32) := by
  rw [answer, sizeTag_sizeOfReg]

/-- Settles O16: the decoded word, then SIZEOF as a command that keeps the store and answers the code's tag. -/
theorem sizeofAnswersTheClass : Obligations.SizeofAnswersTheClass :=
  ⟨decode_sizeof_word, fun s r => exec_of_store_kept rfl (answer_sizeof r s.mem)⟩

end Sys2Proof.Machine

/-! ## RDREG and WRREG: their words, and the cells of a register's view (R12, R82, R150, R151) -/

namespace Sys2Proof

/-- The upper bits of RDREG's word are no earlier row's, and neither bus is read (R82, R150). -/
theorem decode_rdreg_word (r : RegCode) (addr wdata : Bus) :
    decode ⟨0x5000#16 ||| r.setWidth 16, addr, wdata⟩ = .command (.rdreg r) := by
  have hupper : upper (0x5000#16 ||| r.setWidth 16) = 0x280#11 := upper_or_setWidth 0x5000#16 r
  have hreg : regField (0x5000#16 ||| r.setWidth 16) = r := regField_or_setWidth rfl r
  rw [decode_eq, hupper, hreg]
  rfl

/-- The upper bits of WRREG's word are no earlier row's, and only `wdata` is read (R82, R151). -/
theorem decode_wrreg_word (r : RegCode) (addr v : Bus) :
    decode ⟨0x6000#16 ||| r.setWidth 16, addr, v⟩ = .command (.wrreg r v) := by
  have hupper : upper (0x6000#16 ||| r.setWidth 16) = 0x300#11 := upper_or_setWidth 0x6000#16 r
  have hreg : regField (0x6000#16 ||| r.setWidth 16) = r := regField_or_setWidth rfl r
  rw [decode_eq, hupper, hreg]
  rfl

end Sys2Proof

namespace Sys2Proof.Machine

/-- A load with the classifier's size reads the pair of cells for AX, BX, CX, DX and one cell for every other code (R31). -/
theorem load_sizeOfReg (m : Memory) (a : Nat) (r : RegCode) :
    m.load a (sizeOfReg r) =
      if 8 ≤ r.toNat ∧ r.toNat ≤ 11 then (m.read a ++ m.read (a + 1)).signExtend 32 else (m.read a).signExtend 32 := by
  unfold sizeOfReg
  split
  case isTrue => rfl
  case isFalse => rfl

theorem answer_rdreg_of_view {r : RegCode} {a : Nat} (ha : addrOf r = some a) (m : Memory) :
    answer (.rdreg r) m = .ok (m.load a (sizeOfReg r)) := by
  rw [answer, ha, Option.elim_some]

theorem answer_rdreg_of_no_register {r : RegCode} (h : 18 ≤ r.toNat) (m : Memory) :
    answer (.rdreg r) m = .fail .unknownRegister := by
  rw [answer, (addrOf_none_iff r).mpr h, Option.elim_none]

/-- Settles O21: RDREG keeps the store, and `load_sizeOfReg` spells out the load at the literal table's offset. -/
theorem readRegisterAnswersItsView : Obligations.ReadRegisterAnswersItsView := by
  refine ⟨decode_rdreg_word, fun s r hr => ?register, fun s r hr => ?no_register⟩
  case register =>
    rw [← load_sizeOfReg]
    exact exec_of_store_kept rfl (answer_rdreg_of_view (addrOf_eq_literalOffset hr) s.mem)
  case no_register => exact exec_of_store_kept rfl (answer_rdreg_of_no_register hr s.mem)

/-- WRREG is the shared write at the looked-up address with the classifier's size (R12, R151). -/
theorem exec_wrreg_of_view {r : RegCode} {a : Nat} (ha : addrOf r = some a) (v : Bus) (s : State) :
    exec (.wrreg r v) s = .next (s.writeAt a (sizeOfReg r) v) := by
  rw [exec_eq, storeAfter, answer, ha]
  rfl

/-- Without a view there is no cell to write (R151, R178). -/
theorem exec_wrreg_of_no_register {r : RegCode} (h : 18 ≤ r.toNat) (v : Bus) (s : State) :
    exec (.wrreg r v) s = .next { s with responses := s.responses ++ [.fail .unknownRegister] } := by
  have hnone : addrOf r = none := (addrOf_none_iff r).mpr h
  apply exec_of_store_kept
  case hstore => rw [storeAfter, hnone, Option.elim_none]
  case hanswer => rw [answer, hnone, Option.elim_none]

/-- Settles O22: the step is `writeAt`, whose cells the laws of a Word store give for AX, BX, CX, DX and those of a Byte store
for every other register, the obligation writing `highByte` and `lowByte` out. -/
theorem writeRegisterStoresIntoItsView : Obligations.WriteRegisterStoresIntoItsView := by
  refine ⟨decode_wrreg_word, fun r hr => addrOf_eq_literalOffset hr, fun s r v o ho => ?view,
    fun s r v hr => exec_wrreg_of_no_register hr v s⟩
  case view =>
    refine ⟨_, exec_wrreg_of_view ho v s, writeAt_inputs .., writeAt_responses .., ?_⟩
    rw [writeAt_mem]
    split
    case isTrue hword =>
      rw [show sizeOfReg r = .word from if_pos hword]
      exact ⟨read_store_word_high .., read_store_word_low .., fun a hhigh hlow => read_store_word_other _ v hhigh hlow⟩
    case isFalse hbyte =>
      rw [show sizeOfReg r = .byte from if_neg hbyte]
      exact ⟨read_store_byte_same .., fun a ha => read_store_byte_other _ v ha⟩

end Sys2Proof.Machine

/-! ## HFIND, HALLOC and HFREE: one failure for every argument and every store (R160, R161, R162) -/

namespace Sys2Proof

theorem decode_hfind_word (n wdata : Bus) : decode ⟨0x8000, n, wdata⟩ = .command (.hfind n) := rfl

theorem decode_halloc_word (n wdata : Bus) : decode ⟨0x9000, n, wdata⟩ = .command (.halloc n) := rfl

theorem decode_hfree_word (a wdata : Bus) : decode ⟨0xA000, a, wdata⟩ = .command (.hfree a) := rfl

end Sys2Proof

namespace Sys2Proof.Machine

/-- HFIND keeps the store, and neither its argument nor the store decides the answer (R160). -/
theorem exec_hfind (n : Bus) (s : State) :
    exec (.hfind n) s = .next { s with responses := s.responses ++ [.fail .unimplementedOperation] } :=
  exec_of_store_kept rfl rfl

/-- HALLOC likewise: no position is returned and none is out of bounds (R161). -/
theorem exec_halloc (n : Bus) (s : State) :
    exec (.halloc n) s = .next { s with responses := s.responses ++ [.fail .unimplementedOperation] } :=
  exec_of_store_kept rfl rfl

/-- HFREE likewise: no cell is given back (R162). -/
theorem exec_hfree (a : Bus) (s : State) :
    exec (.hfree a) s = .next { s with responses := s.responses ++ [.fail .unimplementedOperation] } :=
  exec_of_store_kept rfl rfl

/-- Settles O23: each heap word selects its own row, and each heap command keeps the store and adds the one failure. -/
theorem heapCommandsAlwaysFail : Obligations.HeapCommandsAlwaysFail :=
  ⟨fun n wdata => ⟨decode_hfind_word n wdata, decode_halloc_word n wdata, decode_hfree_word n wdata⟩,
    fun s n => ⟨exec_hfind n s, exec_halloc n s, exec_hfree n s⟩⟩

end Sys2Proof.Machine

/-! ## Failure kinds: a request's added response is a failure exactly where the table of R176 lists one (R171 to R176) -/

namespace Sys2Proof.Machine

/-- What a command answers agrees with the table of R176 on every failure kind. -/
theorem answer_fail_iff (i : Instr) (m : Memory) (k : FailureKind) :
    answer i m = .fail k ↔ expectedFailure i = some k := by
  cases i with
  | addrof r | rdreg r | wrreg r v =>
    by_cases hr : 18 ≤ r.toNat
    · simp [answer, expectedFailure, hr, (addrOf_none_iff r).mpr hr]
    · have hview := addrOf_eq_literalOffset (r := r) (by omega)
      simp [answer, expectedFailure, hr, hview]
  | rdB p | wrB p v =>
    by_cases hp : p.toNat ≤ 4095
    · simp [answer, expectedFailure, hp, Nat.not_lt.mpr hp]
    · simp [answer, expectedFailure, hp, Nat.not_le.mp hp]
  | rdW p | wrW p v =>
    by_cases hp : p.toNat ≤ 4094
    · simp [answer, expectedFailure, hp, Nat.not_lt.mpr hp]
    · simp [answer, expectedFailure, hp, Nat.not_le.mp hp]
  | sizeof r | hfind n | halloc n | hfree n => simp [answer, expectedFailure]

/-- The failure a request must answer, if any: decoding's own (R174), or its command's in the table of R176. -/
def decodedFailure : Decoded → Option FailureKind
  | .command i => expectedFailure i
  | .illegal => some .illegalCommand

theorem requestAnswer_fail_iff (q : Request) (m : Memory) (k : FailureKind) :
    requestAnswer q m = .fail k ↔ decodedFailure (decode q) = some k := by
  unfold requestAnswer
  cases decode q with
  | command i => exact answer_fail_iff i m k
  | illegal => simp [decodedFailure]

/-- The one response a request adds (R81) is the failure that its decoding determines; the state has no part in it. -/
theorem added_fail_iff {q : Request} {s t : State} (h : runRequest q s = .next t) (k : FailureKind) :
    t.responses = s.responses ++ [.fail k] ↔ decodedFailure (decode q) = some k := by
  rw [runRequest_eq] at h
  cases h
  rw [List.append_cancel_left_eq, List.singleton_inj, requestAnswer_fail_iff]

/-! The failures read backwards: for each kind the commands that the table lists under it, then all the others. -/

theorem decodedFailure_unknownRegister_iff (d : Decoded) :
    decodedFailure d = some .unknownRegister ↔
      ∃ r : RegCode, 18 ≤ r.toNat ∧ (d = .command (.addrof r) ∨ d = .command (.rdreg r) ∨
        ∃ v, d = .command (.wrreg r v)) := by
  cases d with
  | illegal => simp [decodedFailure]
  | command i =>
    cases i with
    | addrof r | rdreg r | wrreg r v => simp [decodedFailure, expectedFailure]
    | sizeof _ | rdB _ | rdW _ | wrB _ _ | wrW _ _ | hfind _ | halloc _ | hfree _ => simp [decodedFailure, expectedFailure]

theorem decodedFailure_outOfBounds_iff (d : Decoded) :
    decodedFailure d = some .outOfBounds ↔
      ∃ p : Bus, (4095 < p.toNat ∧ (d = .command (.rdB p) ∨ ∃ v, d = .command (.wrB p v))) ∨
        (4094 < p.toNat ∧ (d = .command (.rdW p) ∨ ∃ v, d = .command (.wrW p v))) := by
  cases d with
  | illegal => simp [decodedFailure]
  | command i =>
    cases i with
    | rdB p | rdW p | wrB p v | wrW p v => simp [decodedFailure, expectedFailure]
    | addrof _ | sizeof _ | rdreg _ | wrreg _ _ | hfind _ | halloc _ | hfree _ => simp [decodedFailure, expectedFailure]

theorem decodedFailure_unimplementedOperation_iff (d : Decoded) :
    decodedFailure d = some .unimplementedOperation ↔
      ∃ n : Bus, d = .command (.hfind n) ∨ d = .command (.halloc n) ∨ d = .command (.hfree n) := by
  cases d with
  | illegal => simp [decodedFailure]
  | command i =>
    cases i with
    | hfind n | halloc n | hfree n => simp [decodedFailure, expectedFailure]
    | addrof _ | sizeof _ | rdB _ | rdW _ | wrB _ _ | wrW _ _ | rdreg _ | wrreg _ _ => simp [decodedFailure, expectedFailure]

/-- Settles O24: the added response by `added_fail_iff`, and the commands listed under `UnknownRegister`. -/
theorem unknownRegisterExactlyWhen : Obligations.UnknownRegisterExactlyWhen :=
  ⟨rfl, fun q _ _ h => (added_fail_iff h .unknownRegister).trans (decodedFailure_unknownRegister_iff (decode q))⟩

/-- Settles O25: the added response by `added_fail_iff`, and the commands listed under `OutOfBounds`. -/
theorem outOfBoundsExactlyWhen : Obligations.OutOfBoundsExactlyWhen :=
  ⟨rfl, fun q _ _ h => (added_fail_iff h .outOfBounds).trans (decodedFailure_outOfBounds_iff (decode q))⟩

/-- Settles O26: the added response by `added_fail_iff`, and the commands listed under `UnimplementedOperation`. -/
theorem unimplementedExactlyForHeapCommands : Obligations.UnimplementedExactlyForHeapCommands :=
  ⟨rfl, fun q _ _ h =>
    (added_fail_iff h .unimplementedOperation).trans (decodedFailure_unimplementedOperation_iff (decode q))⟩

end Sys2Proof.Machine

/-! ## One step: the block takes the head of its inputs, and nothing else can happen (R81, R200, R207) -/

namespace Sys2Proof.Machine

/-- The store after one presentation of the input ports. -/
def inputStore (p : PortIn) (m : Memory) : Memory :=
  if p.rst then [] else if p.reqValid then requestStore p.req m else m

/-- The responses that one presentation of the input ports adds: one where a request is accepted, none otherwise. -/
def inputAnswers (p : PortIn) (m : Memory) : List Response := if p.accepted then [requestAnswer p.req m] else []

theorem afterInput_eq (p : PortIn) (s : State) :
    afterInput p s = { s with mem := inputStore p s.mem, responses := s.responses ++ inputAnswers p s.mem } := by
  unfold afterInput inputStore inputAnswers PortIn.accepted
  cases p.rst with
  | true => simp [State.resetBlock]
  | false => cases p.reqValid <;> simp

@[simp] theorem afterInput_mem (p : PortIn) (s : State) : (afterInput p s).mem = inputStore p s.mem := by
  rw [afterInput_eq]

@[simp] theorem afterInput_responses (p : PortIn) (s : State) :
    (afterInput p s).responses = s.responses ++ inputAnswers p s.mem := by
  rw [afterInput_eq]

theorem step_cons {s : State} {p : PortIn} {rest : List PortIn} (h : s.inputs = p :: rest) :
    step s = .next (afterInput p { s with inputs := rest }) :=
  (step_takes_head h).trans (acceptInput_eq p _)

/-- Everything a step can do: hold the block where nothing is presented, or take the head of the inputs. -/
theorem step_cases {s t : State} (h : step s = .next t) :
    (s.inputs = [] ∧ t = s) ∨
      ∃ p rest, s.inputs = p :: rest ∧ t = afterInput p { s with inputs := rest } := by
  cases hin : s.inputs with
  | nil =>
    rw [step_nothing_presented hin] at h
    cases h
    exact .inl ⟨rfl, rfl⟩
  | cons p rest =>
    rw [step_cons hin] at h
    cases h
    exact .inr ⟨p, rest, rfl, rfl⟩

/-- Settles O4: `rst` empties the store before the step looks at the request. -/
theorem assertingResetClearsTheStore : Obligations.AssertingResetClearsTheStore := by
  intro s p rest hin hrst
  rw [step_takes_head hin, acceptInput_reset _ hrst]
  rfl

/-- Settles O5: an idle presentation, and no presentation. -/
theorem idlePortsHoldTheBlock : Obligations.IdlePortsHoldTheBlock :=
  ⟨fun _ _ _ hin => (step_takes_head hin).trans (acceptInput_idle _ rfl rfl), fun _ hin => step_nothing_presented hin⟩

theorem runRequest_command {q : Request} {i : Instr} (h : decode q = .command i) (s : State) : runRequest q s = exec i s := by
  unfold runRequest
  rw [h]

theorem runRequest_illegal {q : Request} (h : decode q = .illegal) (s : State) :
    runRequest q s = .next { s with responses := s.responses ++ [.fail .illegalCommand] } := by
  unfold runRequest
  rw [h]
  rfl

theorem step_request {s : State} {q : Request} {rest : List PortIn} (h : s.inputs = ⟨false, true, q⟩ :: rest) :
    step s = runRequest q { s with inputs := rest } :=
  (step_takes_head h).trans (acceptInput_request _ rfl rfl)

/-- Settles O6: an accepted request runs, and its decoding says which command that is. -/
theorem stepRunsTheDecodedCommand : Obligations.StepRunsTheDecodedCommand :=
  fun _ _ _ _ hin hdec => (step_request hin).trans (runRequest_command hdec _)

theorem decode_of_decodeTableWord {nbits w : Nat} {i : Instr} (h : decodeTableWord nbits w = some i) :
    decode (requestOfNat nbits w) = .command i := by
  unfold decodeTableWord at h
  cases hdec : decode (requestOfNat nbits w) with
  | command j =>
    rw [hdec] at h
    cases h
    rfl
  | illegal =>
    rw [hdec] at h
    cases h

/-- Settles O7: presenting the word puts its request at the head of the inputs, where O6 runs it. -/
theorem presentedWordRunsNext : Obligations.PresentedWordRunsNext :=
  fun s nbits w i h =>
    stepRunsTheDecodedCommand (s.withFetchWord nbits w) (requestOfNat nbits w) s.inputs i rfl (decode_of_decodeTableWord h)

/-- Settles O45: the state after the head of the inputs, with its one answer or none. -/
theorem everyInputIsTakenAndAnsweredOnce : Obligations.EveryInputIsTakenAndAnsweredOnce := by
  intro s p rest hin
  refine ⟨_, step_cons hin, afterInput_inputs .., ?_⟩
  rw [afterInput_responses, inputAnswers]
  cases p.accepted with
  | true => exact ⟨_, rfl⟩
  | false => exact List.append_nil _

end Sys2Proof.Machine

/-! ## The canonical form of the store, kept by every step, and what it is for (R22, R24) -/

namespace Sys2Proof.Machine

/-- The commands that store: `WR.B`, `WR.W` and `WRREG` (R23). -/
def IsWrite (i : Instr) : Prop := (∃ x v, i = .wrB x v) ∨ (∃ x v, i = .wrW x v) ∨ ∃ r v, i = .wrreg r v

/-- A command leaves the store as it was, or it is a write that stores inside `[0, 4096)` and answers 0 (R23, R178). -/
theorem storeAfter_cases (i : Instr) (m : Memory) :
    storeAfter i m = m ∨
      (IsWrite i ∧ answer i m = .ok 0 ∧ ∃ p sz v, p + nbytes sz ≤ Config.memSize ∧ storeAfter i m = m.store p sz v) := by
  cases i with
  | wrB p v =>
    by_cases hp : p.toNat ≤ 4095
    · exact .inr ⟨.inl ⟨p, v, rfl⟩, if_pos hp, p.toNat, .byte, v, Nat.succ_le_succ hp, if_pos hp⟩
    · exact .inl (if_neg hp)
  | wrW p v =>
    by_cases hp : p.toNat ≤ 4094
    · exact .inr ⟨.inr (.inl ⟨p, v, rfl⟩), if_pos hp, p.toNat, .word, v, Nat.add_le_add_right hp 2, if_pos hp⟩
    · exact .inl (if_neg hp)
  | wrreg r v =>
    cases ha : addrOf r with
    | none => exact .inl (by rw [storeAfter, ha, Option.elim_none])
    | some a =>
      exact .inr ⟨.inr (.inr ⟨r, v, rfl⟩), by rw [answer, ha, Option.elim_some], a, sizeOfReg r, v,
        addrOf_in_store r a ha, by rw [storeAfter, ha, Option.elim_some]⟩
  | addrof _ | sizeof _ | rdB _ | rdW _ | rdreg _ | hfind _ | halloc _ | hfree _ => exact .inl rfl

theorem wf_storeAfter (i : Instr) {m : Memory} (h : m.wf = true) : (storeAfter i m).wf = true := by
  rcases storeAfter_cases i m with hkept | ⟨-, -, p, sz, v, hp, hstore⟩
  · rwa [hkept]
  · rw [hstore]
    exact wf_store h hp v

theorem wf_requestStore (q : Request) {m : Memory} (h : m.wf = true) : (requestStore q m).wf = true := by
  unfold requestStore
  cases decode q with
  | command i => exact wf_storeAfter i h
  | illegal => exact h

theorem wf_inputStore (p : PortIn) {m : Memory} (h : m.wf = true) : (inputStore p m).wf = true := by
  unfold inputStore
  split
  · exact wf_nil
  · split
    · exact wf_requestStore p.req h
    · exact h

/-- Settles O2: the reset store lists no cell. -/
theorem resetStoreIsWellFormed : Obligations.ResetStoreIsWellFormed := wf_nil

/-- Settles O3: a step holds the store, or leaves what one presentation leaves of it. -/
theorem stepKeepsTheStoreForm : Obligations.StepKeepsTheStoreForm := by
  intro s t hs hstep
  rcases step_cases hstep with ⟨-, rfl⟩ | ⟨p, rest, -, rfl⟩
  case inl => exact hs
  case inr =>
    rw [StoreInv, afterInput_mem]
    exact wf_inputStore p hs

/-- A position before all that are listed reads 0. -/
theorem read_of_lt {m : Memory} {a : Nat} (h : ∀ d ∈ m, a < d.1) : m.read a = unlistedByte := by
  induction m with
  | nil => rfl
  | cons c m ih =>
    rw [read_cons, if_neg (Nat.ne_of_gt (h c List.mem_cons_self))]
    exact ih (fun d hd => h d (List.mem_cons_of_mem _ hd))

/-- A canonical store lists exactly the cells that differ from 0, each with the value it reads. -/
theorem mem_iff_read {m : Memory} (h : m.wf = true) (c : Host.Cell) :
    c ∈ m ↔ m.read c.1 = c.2 ∧ c.2 ≠ unlistedByte := by
  induction m with
  | nil => simp [Memory.read, eq_comm]
  | cons d m ih =>
    obtain ⟨hv, -, hlt, hm⟩ := (wf_cons d m).mp h
    rw [List.mem_cons, read_cons]
    by_cases hd : d.1 = c.1
    · have hout : c ∉ m := fun hc => Nat.ne_of_lt (hlt c hc) hd
      rw [if_pos hd]
      constructor
      · rintro (rfl | hc)
        · exact ⟨rfl, hv⟩
        · exact absurd hc hout
      · rintro ⟨hval, -⟩
        exact .inl (Prod.ext hd.symm hval.symm)
    · rw [if_neg hd, ← ih hm]
      exact ⟨fun hc => hc.resolve_left (fun heq => hd (heq ▸ rfl)), .inr⟩

theorem pos_lt_memSize {m : Memory} (h : m.wf = true) {c : Host.Cell} (hc : c ∈ m) : c.1 < Config.memSize := by
  induction m with
  | nil => cases hc
  | cons d m ih =>
    obtain ⟨-, hbound, -, hm⟩ := (wf_cons d m).mp h
    rcases List.mem_cons.mp hc with rfl | hc
    · exact hbound
    · exact ih hm hc

theorem pairwise_pos_of_wf {m : Memory} (h : m.wf = true) : m.Pairwise (fun c d => c.1 < d.1) := by
  induction m with
  | nil => exact .nil
  | cons d m ih =>
    obtain ⟨-, -, hlt, hm⟩ := (wf_cons d m).mp h
    exact .cons hlt (ih hm)

/-- In a canonical store whose cells another canonical store reads too, every entry is an entry of the other. -/
theorem mem_of_cells_agree {m₁ m₂ : Memory} (h₁ : m₁.wf = true) (h₂ : m₂.wf = true)
    (hread : ∀ a : Nat, a < 4096 → m₁.read a = m₂.read a) {c : Host.Cell} (hc : c ∈ m₁) : c ∈ m₂ := by
  obtain ⟨hval, hne⟩ := (mem_iff_read h₁ c).mp hc
  exact (mem_iff_read h₂ c).mpr ⟨(hread c.1 (pos_lt_memSize h₁ hc)).symm.trans hval, hne⟩

/-- Settles O33: agreeing cells make the entries the same set, and rising positions leave one order for it. -/
theorem canonicalStoresAreUnique : Obligations.CanonicalStoresAreUnique := by
  intro m₁ m₂ h₁ h₂ hread
  have : Std.Antisymm (fun c d : Host.Cell => c.1 < d.1) := ⟨fun _ _ hcd hdc => absurd hdc (Nat.lt_asymm hcd)⟩
  have : Std.Irrefl (fun c d : Host.Cell => c.1 < d.1) := ⟨fun c => Nat.lt_irrefl c.1⟩
  exact (pairwise_pos_of_wf h₁).eq_of_mem_iff (pairwise_pos_of_wf h₂) fun c =>
    ⟨mem_of_cells_agree h₁ h₂ hread, mem_of_cells_agree h₂ h₁ fun a ha => (hread a ha).symm⟩

end Sys2Proof.Machine

/-! ## Encoding: the encoder's words are the legal words, and each decodes back (R82, R89, R91, R92) -/

namespace Sys2Proof

@[simp] theorem regField_fieldsWord (f : CmdFields) : regField (fieldsWord f) = f.reg := regField_append _ f.reg

@[simp] theorem upper_fieldsWord (f : CmdFields) : upper (fieldsWord f) = f.op ++ f.z1 ++ f.sz ++ f.z0 := upper_append _ f.reg

@[simp] theorem fieldsWord_cmdFields (w : CmdWord) : fieldsWord (cmdFields w) = w := by
  apply BitVec.eq_of_getLsbD_eq
  intro i hi
  simp only [fieldsWord, cmdFields, regField, BitVec.getLsbD_append, BitVec.getLsbD_extractLsb']
  interval_cases i <;> simp

/-- Bits 15..5 of each command's word, from the column of patterns of R82. -/
def upperOf : Instr → BitVec 11
  | .addrof _  => 0x80#11
  | .sizeof _  => 0x100#11
  | .rdB _     => 0x180#11
  | .rdW _     => 0x188#11
  | .wrB _ _   => 0x200#11
  | .wrW _ _   => 0x208#11
  | .rdreg _   => 0x280#11
  | .wrreg _ _ => 0x300#11
  | .hfind _   => 0x400#11
  | .halloc _  => 0x480#11
  | .hfree _   => 0x500#11

/-- The register operand of each command, 0 where it takes none (R84). -/
def regOf (i : Instr) : RegCode := (instrFields i).reg

theorem upper_encode (i : Instr) : upper (encode i).cmd = upperOf i := by
  rw [encode, upper_fieldsWord]
  cases i with
  | addrof _ | sizeof _ | rdB _ | rdW _ | wrB _ _ | wrW _ _ | rdreg _ | wrreg _ _ | hfind _ | halloc _ | hfree _ =>
    simp [instrFields, upperOf]

theorem regField_encode (i : Instr) : regField (encode i).cmd = regOf i := regField_fieldsWord (instrFields i)

/-- Each command's word selects its own row, and the buses carry its operands. -/
theorem decode_encode (i : Instr) : decode (encode i) = .command i := by
  show decode ⟨(encode i).cmd, instrAddr i, instrData i⟩ = _
  rw [decode_eq, upper_encode, regField_encode]
  cases i with
  | addrof _ | sizeof _ | rdB _ | rdW _ | wrB _ _ | wrW _ _ | rdreg _ | wrreg _ _ | hfind _ | halloc _ | hfree _ => rfl

theorem requestOfNat_toNat (w : BitVec 80) : requestOfNat 80 w.toNat = requestOfBits w := by
  rw [requestOfNat, Nat.mod_eq_of_lt w.isLt, BitVec.ofNat_toNat, BitVec.setWidth_eq]

theorem decodeTableWord_of_decode {nbits w : Nat} {i : Instr} (h : decode (requestOfNat nbits w) = .command i) :
    decodeTableWord nbits w = some i := by
  unfold decodeTableWord
  rw [h]

/-- Settles O12: the request by `decode_encode`, and the number because packing and unpacking a request agree. -/
theorem encodedCommandsDecodeBack : Obligations.EncodedCommandsDecodeBack := by
  refine fun i => ⟨decode_encode i, decodeTableWord_of_decode ?_⟩
  rw [requestOfNat_toNat, requestOfBits_requestBits]
  exact decode_encode i

/-- A command's word is the one with its upper bits and its register operand. -/
theorem cmd_encode_eq_iff (i : Instr) (w : CmdWord) : (encode i).cmd = w ↔ upperOf i = upper w ∧ regOf i = regField w := by
  rw [word_ext_iff, upper_encode, regField_encode]

/-- What selects a row with a register operand is the encoder's word for the row's command. -/
theorem encode_of_register_row {c w : CmdWord} {b : RegCode → Bus → Bus → Instr} (hc : regField c = 0#5)
    (h : (CommandRow.mk c 0xFFE0#16 b).selects w = true) {i : Instr} (hupper : upperOf i = upper c)
    (hreg : regOf i = regField w) : (encode i).cmd = w := by
  rw [selects_register_row c w b hc, decide_eq_true_eq] at h
  exact (cmd_encode_eq_iff i w).mpr ⟨hupper.trans h.symm, hreg⟩

/-- What selects a row without a register operand is the encoder's word for the row's command. -/
theorem encode_of_full_row {c w : CmdWord} {b : RegCode → Bus → Bus → Instr} (hc : regField c = 0#5)
    (h : (CommandRow.mk c 0xFFFF#16 b).selects w = true) {i : Instr} (hupper : upperOf i = upper c)
    (hreg : regOf i = 0#5) : (encode i).cmd = w := by
  rw [selects_full_row c w b hc, decide_eq_true_eq] at h
  exact (cmd_encode_eq_iff i w).mpr ⟨hupper.trans h.1.symm, hreg.trans h.2.symm⟩

theorem encode_build_of_selects (w : CmdWord) (addr wdata : Bus) :
    ∀ row ∈ commandTable, row.selects w = true → (encode (row.build (regField w) addr wdata)).cmd = w := by
  simp only [commandTable, List.forall_mem_cons]
  refine ⟨?addrof, ?sizeof, ?rdB, ?rdW, ?wrB, ?wrW, ?rdreg, ?wrreg, ?hfind, ?halloc, ?hfree, nofun⟩
  case addrof | sizeof | rdreg | wrreg => exact fun h => encode_of_register_row rfl h rfl rfl
  case rdB | rdW | wrB | wrW | hfind | halloc | hfree => exact fun h => encode_of_full_row rfl h rfl rfl

/-- Settles O13: the command is built by a row that the word selects. -/
theorem legalWordsHaveOneSpelling : Obligations.LegalWordsHaveOneSpelling := by
  rintro ⟨cmd, addr, wdata⟩ i h
  simp only [decode] at h
  cases hrow : commandTable.find? (fun row => row.selects cmd) with
  | none =>
    rw [hrow] at h
    cases h
  | some row =>
    rw [hrow] at h
    cases h
    have hselects : row.selects cmd = true := List.find?_some (p := (CommandRow.selects · cmd)) hrow
    exact encode_build_of_selects cmd addr wdata row (List.mem_of_find?_eq_some hrow) hselects

/-- The legal command words are the encoder's, whatever stands on the buses. -/
theorem decode_ne_illegal_iff (q : Request) : decode q ≠ .illegal ↔ ∃ i, (encode i).cmd = q.cmd := by
  constructor
  · intro h
    cases hdec : decode q with
    | command i => exact ⟨i, legalWordsHaveOneSpelling q i hdec⟩
    | illegal => exact absurd hdec h
  · rintro ⟨i, hi⟩ hillegal
    have hbuses : decode (encode i) = .illegal := by
      have h : decode ⟨q.cmd, q.addr, q.wdata⟩ = .illegal := hillegal
      rw [← hi] at h
      exact illegal_of_cmd h _ _
    rw [decode_encode] at hbuses
    cases hbuses

theorem wellFormed_encode (i : Instr) : (cmdFields (encode i).cmd).wellFormed = true := by
  cases i with
  | addrof r => exact Laws.EncodesLegal.addrof r
  | sizeof r => exact Laws.EncodesLegal.sizeof r
  | rdB p => exact Laws.EncodesLegal.rdB p
  | rdW p => exact Laws.EncodesLegal.rdW p
  | wrB p v => exact Laws.EncodesLegal.wrB p v
  | wrW p v => exact Laws.EncodesLegal.wrW p v
  | rdreg r => exact Laws.EncodesLegal.rdreg r
  | wrreg r v => exact Laws.EncodesLegal.wrreg r v
  | hfind n => exact Laws.EncodesLegal.hfind n
  | halloc n => exact Laws.EncodesLegal.halloc n
  | hfree a => exact Laws.EncodesLegal.hfree a

/-- The nine values of `op` that have rows (R82, R89). -/
theorem op_of_opDefined (f : CmdFields) (h : f.opDefined = true) :
    (f.op = 0x1 ∨ f.op = 0x2 ∨ f.op = 0x5 ∨ f.op = 0x6) ∨ (f.op = 0x3 ∨ f.op = 0x4) ∨
      (f.op = 0x8 ∨ f.op = 0x9 ∨ f.op = 0xA) := by
  obtain ⟨op, z1, sz, z0, reg⟩ := f
  simp only [CmdFields.opDefined] at h ⊢
  revert op
  decide

/-- Fields that meet the five clauses of R89 are those of a command: `op` names the row or, in `0x3` and `0x4`, leaves it to
`sz`, and the clauses empty each field that the row does not use. -/
theorem exists_instrFields_of_wellFormed (f : CmdFields) (h : f.wellFormed = true) : ∃ i, instrFields i = f := by
  simp only [CmdFields.wellFormed, Bool.and_eq_true] at h
  obtain ⟨⟨⟨⟨hop, hz1⟩, hz0⟩, hsz⟩, hreg⟩ := h
  have hrow := op_of_opDefined f hop
  obtain ⟨op, z1, sz, z0, reg⟩ := f
  obtain rfl : z1 = 0#3 := eq_of_beq hz1
  obtain rfl : z0 = 0#3 := eq_of_beq hz0
  simp only [CmdFields.sizeAllowed] at hsz
  simp only [CmdFields.regAllowed] at hreg
  rcases hrow with hregister | hraw | hheap
  case inl =>
    obtain rfl : sz = 0#1 := by
      rcases hregister with rfl | rfl | rfl | rfl <;> simpa using hsz
    rcases hregister with rfl | rfl | rfl | rfl
    · exact ⟨.addrof reg, rfl⟩
    · exact ⟨.sizeof reg, rfl⟩
    · exact ⟨.rdreg reg, rfl⟩
    · exact ⟨.wrreg reg 0, rfl⟩
  case inr.inl =>
    obtain rfl : reg = 0#5 := by
      rcases hraw with rfl | rfl <;> simpa using hreg
    rcases hraw with rfl | rfl <;> rcases BitVec.eq_zero_or_eq_one sz with rfl | rfl
    · exact ⟨.rdB 0, rfl⟩
    · exact ⟨.rdW 0, rfl⟩
    · exact ⟨.wrB 0 0, rfl⟩
    · exact ⟨.wrW 0 0, rfl⟩
  case inr.inr =>
    obtain rfl : sz = 0#1 := by
      rcases hheap with rfl | rfl | rfl <;> simpa using hsz
    obtain rfl : reg = 0#5 := by
      rcases hheap with rfl | rfl | rfl <;> simpa using hreg
    rcases hheap with rfl | rfl | rfl
    · exact ⟨.hfind 0, rfl⟩
    · exact ⟨.halloc 0, rfl⟩
    · exact ⟨.hfree 0, rfl⟩

theorem wellFormed_iff (w : CmdWord) : (cmdFields w).wellFormed = true ↔ ∃ i, (encode i).cmd = w := by
  constructor
  · intro h
    obtain ⟨i, hi⟩ := exists_instrFields_of_wellFormed (cmdFields w) h
    exact ⟨i, by rw [encode, hi, fieldsWord_cmdFields]⟩
  · rintro ⟨i, rfl⟩
    exact wellFormed_encode i

/-- Settles O9: the words that decode and the words that meet the five clauses are both the encoder's words. -/
theorem illegalExactlyByTheFieldClauses : Obligations.IllegalExactlyByTheFieldClauses := by
  intro q
  rw [← Bool.not_eq_true, wellFormed_iff, ← decode_ne_illegal_iff, Classical.not_not]

/-- No two rows build commands with the same upper bits. -/
theorem pairwise_upperOf_build :
    commandTable.Pairwise (fun a b => ∀ r : RegCode, upperOf (a.build r 0 0) ≠ upperOf (b.build r 0 0)) := by
  simp [commandTable, upperOf]

/-- Settles O10: a word that two rows select is the encoder's word for a command of each, with the upper bits of both. -/
theorem commandRowsAreDisjoint : Obligations.CommandRowsAreDisjoint := by
  refine pairwise_upperOf_build.imp_of_mem fun {a b} ha hb hne w ⟨hwa, hwb⟩ => hne (regField w) ?_
  have hupper : ∀ row ∈ commandTable, row.selects w = true → upperOf (row.build (regField w) 0 0) = upper w :=
    fun row hrow hw => ((cmd_encode_eq_iff _ w).mp (encode_build_of_selects w 0 0 row hrow hw)).1
  rw [hupper a ha hwa, hupper b hb hwb]

/-- Settles O14: the row that a written-out word selects is found by evaluation. -/
theorem exampleWordsDecode : Obligations.ExampleWordsDecode :=
  ⟨rfl, rfl, rfl, rfl, rfl, rfl, rfl, rfl, rfl, rfl, rfl, rfl⟩

/-- The upper bits of the rows with a register operand. -/
def registerUppers : List (BitVec 11) := [0x80#11, 0x100#11, 0x280#11, 0x300#11]

/-- The upper bits of the rows without one. -/
def plainUppers : List (BitVec 11) := [0x180#11, 0x188#11, 0x200#11, 0x208#11, 0x400#11, 0x480#11, 0x500#11]

/-- Every value of the `reg` field, 0 to 31 (R26, R90). -/
def allRegCodes : List RegCode := (List.finRange 32).map BitVec.ofFin

theorem mem_allRegCodes (r : RegCode) : r ∈ allRegCodes := List.mem_map.mpr ⟨r.toFin, List.mem_finRange _, rfl⟩

theorem nodup_allRegCodes : allRegCodes.Nodup :=
  (List.nodup_finRange 32).map fun _ _ h => congrArg BitVec.toFin h

/-- The legal words, each as its upper bits and its `reg` field: every register code where the row takes one, 0 elsewhere. -/
def legalHalves : List (BitVec 11 × RegCode) := registerUppers ×ˢ allRegCodes ++ plainUppers ×ˢ [0#5]

theorem nodup_legalHalves : legalHalves.Nodup := by
  refine List.Nodup.append (.product (by decide) nodup_allRegCodes) (.product (by decide) (by decide)) ?_
  intro x hregister hplain
  have hdisjoint : ∀ u ∈ registerUppers, u ∉ plainUppers := by decide
  exact hdisjoint x.1 (List.mem_product.mp hregister).1 (List.mem_product.mp hplain).1

theorem mem_legalHalves_iff (u : BitVec 11) (r : RegCode) :
    (u, r) ∈ legalHalves ↔ ∃ i, upperOf i = u ∧ regOf i = r := by
  rw [legalHalves, List.mem_append, List.mem_product, List.mem_product]
  constructor
  · simp only [registerUppers, plainUppers, List.mem_cons, List.not_mem_nil, or_false]
    rintro (⟨rfl | rfl | rfl | rfl, -⟩ | ⟨rfl | rfl | rfl | rfl | rfl | rfl | rfl, rfl⟩)
    · exact ⟨.addrof r, rfl, rfl⟩
    · exact ⟨.sizeof r, rfl, rfl⟩
    · exact ⟨.rdreg r, rfl, rfl⟩
    · exact ⟨.wrreg r 0, rfl, rfl⟩
    · exact ⟨.rdB 0, rfl, rfl⟩
    · exact ⟨.rdW 0, rfl, rfl⟩
    · exact ⟨.wrB 0 0, rfl, rfl⟩
    · exact ⟨.wrW 0 0, rfl, rfl⟩
    · exact ⟨.hfind 0, rfl, rfl⟩
    · exact ⟨.halloc 0, rfl, rfl⟩
    · exact ⟨.hfree 0, rfl, rfl⟩
  · rintro ⟨i, rfl, rfl⟩
    cases i with
    | addrof r | sizeof r | rdreg r | wrreg r v => exact .inl ⟨by simp [upperOf, registerUppers], mem_allRegCodes r⟩
    | rdB _ | rdW _ | wrB _ _ | wrW _ _ | hfind _ | halloc _ | hfree _ =>
      exact .inr ⟨by simp [upperOf, plainUppers], List.mem_singleton.mpr rfl⟩

/-- A command word put together from its two halves. -/
def wordOfHalves (x : BitVec 11 × RegCode) : CmdWord := x.1 ++ x.2

theorem wordOfHalves_injective : Function.Injective wordOfHalves := fun x y h =>
  Prod.ext (by simpa [wordOfHalves] using congrArg upper h) (by simpa [wordOfHalves] using congrArg regField h)

theorem mem_map_wordOfHalves_iff (w : CmdWord) : w ∈ legalHalves.map wordOfHalves ↔ ∃ i, (encode i).cmd = w := by
  have hw : wordOfHalves (upper w, regField w) = w := upper_append_regField w
  rw [← hw, List.mem_map_of_injective wordOfHalves_injective, mem_legalHalves_iff, hw]
  simp only [cmd_encode_eq_iff]

/-- Settles O11: the words are counted by their halves, 4 * 32 with a register operand and 7 without. -/
theorem legalCommandWordsNumber135 : Obligations.LegalCommandWordsNumber135 := by
  refine ⟨legalHalves.map wordOfHalves, nodup_legalHalves.map wordOfHalves_injective, ?_, fun w => ?_⟩
  · rw [List.length_map, legalHalves, List.length_append, List.length_product, List.length_product, allRegCodes,
      List.length_map, List.length_finRange]
    rfl
  · rw [mem_map_wordOfHalves_iff]
    exact ⟨fun h addr wdata => (decode_ne_illegal_iff ⟨w, addr, wdata⟩).mpr h,
      fun h => (decode_ne_illegal_iff ⟨w, 0, 0⟩).mp (h 0 0)⟩

end Sys2Proof

namespace Sys2Proof.Machine

/-- Settles O8: such a word is illegal by `illegalExactlyByTheFieldClauses`, and the step is that request's. -/
theorem illegalWordsAnswerIllegalCommand : Obligations.IllegalWordsAnswerIllegalCommand :=
  fun _ q _ hin hfields =>
    (step_request hin).trans (runRequest_illegal ((illegalExactlyByTheFieldClauses q).mpr hfields) _)

end Sys2Proof.Machine

/-! ## The frame: what a command, a request or a presentation stores at one cell, and what follows a failure (R11, R23, R178, R180) -/

namespace Sys2Proof.Machine

/-- A raw write puts into every cell what `byteStoredAt` says, or leaves it (R11). -/
theorem read_store (m : Memory) (p : Nat) (sz : Size) (v : Bus) (a : Nat) :
    (m.store p sz v).read a = (byteStoredAt p sz v a).getD (m.read a) := by
  cases sz with
  | byte =>
    rw [read_store_byte, byteStoredAt]
    split <;> rfl
  | word =>
    rw [read_store_word, byteStoredAt]
    split
    · rfl
    · split <;> rfl

/-- The printed view of a register is what the lookup and the classifier give: one cell at the offset, or two (R27, R31). -/
theorem viewCells_eq : ∀ {r : RegCode}, r.toNat ≤ 17 →
    viewCells r = match sizeOfReg r with
      | .byte => [literalOffset r]
      | .word => [literalOffset r, literalOffset r + 1] := by
  decide

theorem storedByte_wrreg {r : RegCode} (hr : r.toNat ≤ 17) (v : Bus) (a : Nat) :
    storedByte (.wrreg r v) a = byteStoredAt (literalOffset r) (sizeOfReg r) v a := by
  have hok : expectedFailure (.wrreg r v) = none := if_neg (by omega)
  simp only [storedByte, hok, viewCells_eq hr]
  cases sizeOfReg r <;> rfl

/-- A command that must fail stores nothing (R178). -/
theorem storedByte_of_expectedFailure {i : Instr} {k : FailureKind} (h : expectedFailure i = some k) (a : Nat) :
    storedByte i a = none := by
  simp [storedByte, h]

/-- The frame of every command, over the store it leaves. -/
theorem read_storeAfter (i : Instr) (m : Memory) (a : Nat) :
    (storeAfter i m).read a = (storedByte i a).getD (m.read a) := by
  cases i with
  | wrB p v =>
    by_cases hp : p.toNat ≤ 4095
    · have hok : expectedFailure (.wrB p v) = none := if_neg (by omega)
      simp only [storeAfter, storedByte, hp, hok]
      exact read_store m p.toNat .byte v a
    · have hfail : expectedFailure (.wrB p v) = some .outOfBounds := if_pos (Nat.lt_of_not_le hp)
      rw [storeAfter, if_neg hp, storedByte_of_expectedFailure hfail, Option.getD_none]
  | wrW p v =>
    by_cases hp : p.toNat ≤ 4094
    · have hok : expectedFailure (.wrW p v) = none := if_neg (by omega)
      simp only [storeAfter, storedByte, hp, hok]
      exact read_store m p.toNat .word v a
    · have hfail : expectedFailure (.wrW p v) = some .outOfBounds := if_pos (Nat.lt_of_not_le hp)
      rw [storeAfter, if_neg hp, storedByte_of_expectedFailure hfail, Option.getD_none]
  | wrreg r v =>
    by_cases hr : r.toNat ≤ 17
    · rw [storeAfter, addrOf_eq_literalOffset hr, storedByte_wrreg hr]
      exact read_store m _ _ v a
    · have hcode : 18 ≤ r.toNat := by omega
      have hfail : expectedFailure (.wrreg r v) = some .unknownRegister := if_pos hcode
      rw [storeAfter, (addrOf_none_iff r).mpr hcode, Option.elim_none, storedByte_of_expectedFailure hfail, Option.getD_none]
  | addrof _ | sizeof _ | rdB _ | rdW _ | rdreg _ | hfind _ | halloc _ | hfree _ => simp [storeAfter, storedByte]

/-- Settles O29: every command answers the one response and leaves the store of `exec_eq`, whose cells are the frame's. -/
theorem commandChangesOnlyWhatItStores : Obligations.CommandChangesOnlyWhatItStores :=
  fun i s => ⟨_, _, exec_eq i s, rfl, rfl, read_storeAfter i s.mem⟩

/-- What one presentation puts into a cell is what `coveredBy` says, or the cell keeps its value. -/
theorem read_inputStore (p : PortIn) (m : Memory) (a : Nat) :
    (inputStore p m).read a = (coveredBy a p).getD (m.read a) := by
  unfold inputStore coveredBy
  split
  · rfl
  · split
    · unfold requestStore
      cases decode p.req with
      | command i => exact read_storeAfter i m a
      | illegal => rfl
    · rfl

/-- The last of the inputs after `p` to cover a cell goes before `p`. -/
theorem lastCovering_cons (p : PortIn) (rest : List PortIn) (a : Nat) :
    lastCovering (p :: rest) a = (lastCovering rest a).or (coveredBy a p) := by
  simp [lastCovering, List.findSome?_append]

/-- What the inputs leave in a cell may be counted from before the first of them or from after it. -/
theorem lastCovering_cons_getD (p : PortIn) (rest : List PortIn) (m : Memory) (a : Nat) :
    (lastCovering (p :: rest) a).getD (m.read a) = (lastCovering rest a).getD ((inputStore p m).read a) := by
  rw [lastCovering_cons, read_inputStore, Option.getD_or]

/-- Settles O53: the step has moved one input from those to come into the store. -/
theorem stepKeepsWhatTheRunLeaves : Obligations.StepKeepsWhatTheRunLeaves := by
  intro final s t hfinal hstep a
  rcases step_cases hstep with ⟨-, rfl⟩ | ⟨p, rest, hin, rfl⟩
  case inl => exact hfinal a
  case inr =>
    rw [afterInput_inputs, afterInput_mem, ← lastCovering_cons_getD, ← hin]
    exact hfinal a

theorem requestStore_cases (q : Request) (m : Memory) :
    requestStore q m = m ∨ ∃ i, decode q = .command i ∧ IsWrite i ∧ requestAnswer q m = .ok 0 := by
  unfold requestStore requestAnswer
  cases decode q with
  | command i => exact (storeAfter_cases i m).imp_right fun ⟨hwrite, hanswer, _⟩ => ⟨i, rfl, hwrite, hanswer⟩
  | illegal => exact .inl rfl

/-- Settles O27: a request that changed the store was answered 0 and not with a failure. -/
theorem failingRequestChangesNothing : Obligations.FailingRequestChangesNothing := by
  intro q s t k hrun hfail
  rw [runRequest_eq] at hrun
  cases hrun
  have hanswer : requestAnswer q s.mem = .fail k := by simpa using hfail
  rcases requestStore_cases q s.mem with hkept | ⟨_, _, _, hok⟩
  · rw [hkept, hanswer]
  · rw [hok] at hanswer
    cases hanswer

/-- Settles O28: store and answer of a request are functions of the store alone. -/
theorem earlierAnswersDoNotMatter : Obligations.EarlierAnswersDoNotMatter :=
  fun q s _ => ⟨_, _, runRequest_eq q s, runRequest_eq q _⟩

/-- Settles O30: a presentation that changed the store was `rst` or an accepted request, and that request a write that completed. -/
theorem onlyWritesAndResetChangeCells : Obligations.OnlyWritesAndResetChangeCells := by
  intro s t a hstep hread
  rcases step_cases hstep with ⟨-, rfl⟩ | ⟨p, rest, hin, rfl⟩
  case inl => exact absurd rfl hread
  case inr =>
    refine ⟨p, rest, hin, ?_⟩
    rw [afterInput_mem] at hread
    rw [afterInput_responses]
    cases hrst : p.rst with
    | true => exact .inl rfl
    | false =>
      cases hvalid : p.reqValid with
      | false => simp [inputStore, hrst, hvalid] at hread
      | true =>
        rcases requestStore_cases p.req s.mem with hkept | ⟨i, hdec, hwrite, hok⟩
        · simp [inputStore, hrst, hvalid, hkept] at hread
        · exact .inr ⟨rfl, by simp [inputAnswers, PortIn.accepted, hrst, hvalid, hok], i, hdec, hwrite⟩

end Sys2Proof.Machine

/-! ## Answers: what they depend on, their ranges, and what the output ports show of them (R20, R43, R81, R87, R88) -/

namespace Sys2Proof.Machine

/-- Two stores that read alike in the 4096 cells. -/
def CellsAgree (m₁ m₂ : Memory) : Prop := ∀ a : Nat, a < 4096 → m₁.read a = m₂.read a

/-- A load inside the store depends on the 4096 cells alone. -/
theorem load_eq_of_cellsAgree {m₁ m₂ : Memory} (h : CellsAgree m₁ m₂) {p : Nat} {sz : Size} (hp : p + nbytes sz ≤ 4096) :
    m₁.load p sz = m₂.load p sz := by
  cases sz with
  | byte => rw [Memory.load, Memory.load, h p hp]
  | word => rw [Memory.load, Memory.load, h p (by simp only [nbytes] at hp; omega), h (p + 1) hp]

theorem answer_eq_of_cellsAgree (i : Instr) {m₁ m₂ : Memory} (h : CellsAgree m₁ m₂) : answer i m₁ = answer i m₂ := by
  cases i with
  | rdB p =>
    rw [answer, answer]
    split
    · next hp => rw [load_eq_of_cellsAgree h (Nat.succ_le_succ hp)]
    · rfl
  | rdW p =>
    rw [answer, answer]
    split
    · next hp => rw [load_eq_of_cellsAgree h (Nat.add_le_add_right hp 2)]
    · rfl
  | rdreg r =>
    cases ha : addrOf r with
    | none => rw [answer, answer, ha, Option.elim_none, Option.elim_none]
    | some a => rw [answer_rdreg_of_view ha, answer_rdreg_of_view ha, load_eq_of_cellsAgree h (addrOf_in_store r a ha)]
  | addrof _ | sizeof _ | wrB _ _ | wrW _ _ | wrreg _ _ | hfind _ | halloc _ | hfree _ => rfl

theorem requestAnswer_eq_of_cellsAgree (q : Request) {m₁ m₂ : Memory} (h : CellsAgree m₁ m₂) :
    requestAnswer q m₁ = requestAnswer q m₂ := by
  unfold requestAnswer
  cases decode q with
  | command i => exact answer_eq_of_cellsAgree i h
  | illegal => rfl

/-- By the frame, a presentation leaves cells that agree where it finds such. -/
theorem cellsAgree_inputStore (p : PortIn) {m₁ m₂ : Memory} (h : CellsAgree m₁ m₂) :
    CellsAgree (inputStore p m₁) (inputStore p m₂) := fun a ha => by
  rw [read_inputStore, read_inputStore, h a ha]

theorem inputAnswers_eq_of_cellsAgree (p : PortIn) {m₁ m₂ : Memory} (h : CellsAgree m₁ m₂) :
    inputAnswers p m₁ = inputAnswers p m₂ := by
  rw [inputAnswers, inputAnswers, requestAnswer_eq_of_cellsAgree p.req h]

/-- Settles O31: the answer by `requestAnswer_eq_of_cellsAgree`, the cells as those of the request's presentation. -/
theorem answerDependsOnTheCellsAlone : Obligations.AnswerDependsOnTheCellsAlone := fun q s₁ s₂ h =>
  ⟨_, _, _, runRequest_eq q s₁, runRequest_eq q s₂, rfl, by rw [requestAnswer_eq_of_cellsAgree q h],
    cellsAgree_inputStore ⟨false, true, q⟩ h⟩

/-- A pattern of 8 bits, widened, stays in the range of 8 bits (R8). -/
theorem toInt_signExtend_byte (b : Byte) : -128 ≤ (b.signExtend 32).toInt ∧ (b.signExtend 32).toInt ≤ 127 := by
  rw [BitVec.toInt_signExtend_of_le (by decide)]
  exact ⟨b.le_toInt, Int.le_of_lt_add_one b.toInt_lt⟩

/-- A pattern of 16 bits, widened, stays in the range of 16 bits (R8). -/
theorem toInt_signExtend_word (w : BitVec 16) : -32768 ≤ (w.signExtend 32).toInt ∧ (w.signExtend 32).toInt ≤ 32767 := by
  rw [BitVec.toInt_signExtend_of_le (by decide)]
  exact ⟨w.le_toInt, Int.le_of_lt_add_one w.toInt_lt⟩

theorem literalOffset_le : ∀ {r : RegCode}, r.toNat ≤ 17 → literalOffset r ≤ 20 := by decide

/-- Settles O32: a completed command's answer, for each command by its own range. -/
theorem resultsStayInTheirRange : Obligations.ResultsStayInTheirRange := by
  intro i s t x hexec hadded
  rw [exec_eq] at hexec
  cases hexec
  have hok : answer i s.mem = .ok x := by simpa using hadded
  cases i with
  | addrof r =>
    by_cases hr : r.toNat ≤ 17
    · rw [answer_addrof_of_register hr] at hok
      cases hok
      exact Nat.le_trans (Nat.mod_le _ _) (literalOffset_le hr)
    · rw [answer_addrof_of_no_register (by omega)] at hok
      cases hok
  | sizeof r =>
    rw [answer_sizeof] at hok
    cases hok
    show BitVec.toNat _ ≤ 1
    split <;> decide
  | rdB p =>
    rw [answer] at hok
    split at hok
    · cases hok
      exact toInt_signExtend_byte (s.mem.read p.toNat)
    · cases hok
  | rdW p =>
    rw [answer] at hok
    split at hok
    · cases hok
      exact toInt_signExtend_word (s.mem.read p.toNat ++ s.mem.read (p.toNat + 1))
    · cases hok
  | rdreg r =>
    by_cases hr : r.toNat ≤ 17
    · rw [answer_rdreg_of_view (addrOf_eq_literalOffset hr), load_sizeOfReg] at hok
      split at hok
      · next hword =>
        cases hok
        obtain ⟨hlow, hhigh⟩ := toInt_signExtend_word (s.mem.read (literalOffset r) ++ s.mem.read (literalOffset r + 1))
        exact ⟨hlow, hhigh, absurd hword⟩
      · cases hok
        have hbyte := toInt_signExtend_byte (s.mem.read (literalOffset r))
        exact ⟨by omega, by omega, fun _ => hbyte⟩
    · rw [answer_rdreg_of_no_register (by omega)] at hok
      cases hok
  | wrB p v | wrW p v =>
    rw [answer] at hok
    split at hok
    · cases hok
      rfl
    · cases hok
  | wrreg r v =>
    rw [answer] at hok
    cases ha : addrOf r with
    | none =>
      rw [ha] at hok
      cases hok
    | some a =>
      rw [ha] at hok
      cases hok
      rfl
  | hfind n | halloc n | hfree n => cases hok

/-- Settles O43: the codes of R88, and that no failure kind has code 0. -/
theorem statusCodesOfResponses : Obligations.StatusCodesOfResponses := by
  refine ⟨fun v => ⟨rfl, rfl⟩, rfl, rfl, rfl, rfl, fun k => rfl, fun r => ?_⟩
  cases r with
  | ok v => exact ⟨fun _ => ⟨v, rfl⟩, fun _ => rfl⟩
  | fail k =>
    have hcode : k.code ≠ 0#3 := by cases k <;> decide
    exact ⟨fun h => absurd h hcode, nofun⟩

/-- Settles O44: the last response on record is the one the request added. -/
theorem outputPortsShowTheLastAnswer : Obligations.OutputPortsShowTheLastAnswer := by
  intro q s
  refine ⟨_, requestAnswer q s.mem, runRequest_eq q s, rfl, ?_, ?_, ?_⟩ <;>
    simp [State.respValid, State.status, State.rdata, State.lastResponse]

end Sys2Proof.Machine

/-! ## Runs: an invariant of the step holds at the end, and runs from related stores answer alike (R43, R64, R180, R207) -/

namespace Sys2Proof.Machine

/-- A run ends with every input taken, and what every step keeps holds there. -/
theorem runAll_of_invariant {P : State → Prop} (hkeeps : ∀ s t, P s → step s = .next t → P t) :
    ∀ {s : State}, P s → ∃ t, s.runAll = .next t ∧ t.inputs = [] ∧ P t := by
  intro s
  induction hin : s.inputs generalizing s with
  | nil => exact fun hs => ⟨s, runAll_nil hin, hin, hs⟩
  | cons p rest ih =>
    intro hs
    rw [runAll_cons hin]
    exact ih (afterInput_inputs ..) (hkeeps s _ hs (step_cons hin))

/-- `answered` responses are on record since those of `start`, and the requests still to be accepted make up the count `total`. -/
def Owes (start : List Response) (total : Nat) (s : State) : Prop :=
  ∃ answers, s.responses = start ++ answers ∧ answers.length + s.inputs.countP PortIn.accepted = total

theorem length_inputAnswers (p : PortIn) (m : Memory) : (inputAnswers p m).length = if p.accepted then 1 else 0 := by
  unfold inputAnswers
  split <;> rfl

/-- A step turns one request to come into one response, or takes an input that is no accepted request. -/
theorem step_keeps_owes (start : List Response) (total : Nat) (s t : State) (h : Owes start total s) (hstep : step s = .next t) :
    Owes start total t := by
  rcases step_cases hstep with ⟨-, rfl⟩ | ⟨p, rest, hin, rfl⟩
  case inl => exact h
  case inr =>
    obtain ⟨answers, hrecord, hcount⟩ := h
    refine ⟨answers ++ inputAnswers p s.mem, ?_, ?_⟩
    · rw [afterInput_responses, hrecord, List.append_assoc]
    · have hrest : (afterInput p { s with inputs := rest }).inputs = rest := afterInput_inputs ..
      rw [hin, List.countP_cons] at hcount
      rw [hrest, List.length_append, length_inputAnswers]
      omega

/-- Settles O46: at the start every response is owed, at the end none. -/
theorem runAnswersEveryRequest : Obligations.RunAnswersEveryRequest := by
  intro s
  have hstart : Owes s.responses (s.inputs.countP PortIn.accepted) s := ⟨[], by simp, by simp⟩
  obtain ⟨t, hrun, hend, answers, hrecord, hcount⟩ := runAll_of_invariant (step_keeps_owes _ _) hstart
  rw [hend] at hcount
  exact ⟨t, answers, hrun, hend, hrecord, hcount⟩

/-- Settles O47: what the run is to leave, kept by every step (O53), is what the store holds once no input is to come. -/
theorem lastWriteWins : Obligations.LastWriteWins := by
  intro s
  obtain ⟨t, hrun, hend, hfinal⟩ :=
    runAll_of_invariant (stepKeepsWhatTheRunLeaves fun a => (lastCovering s.inputs a).getD (s.mem.read a)) (fun _ => rfl)
  have hread : ∀ a : Nat, t.mem.read a = (lastCovering s.inputs a).getD (s.mem.read a) := fun a => by
    rw [← hfinal a, hend]
    rfl
  exact ⟨t, hrun, hread, fun p hp => exec_rdB_of_read hp (hread p.toNat)⟩

theorem isFailure_requestAnswer {q : Request} {i : Instr} (hdec : decode q = .command i) (hok : expectedFailure i = none)
    (m : Memory) : (requestAnswer q m).isFailure = false := by
  cases hanswer : requestAnswer q m with
  | ok v => rfl
  | fail k =>
    rw [requestAnswer_fail_iff, hdec, decodedFailure, hok] at hanswer
    cases hanswer

/-- A presentation adds no failure if its request, where it is accepted, decodes to a command that the table lets succeed. -/
theorem inputAnswers_failureFree {p : PortIn}
    (h : p.accepted = true → ∃ i, decode p.req = .command i ∧ expectedFailure i = none) (m : Memory) :
    (inputAnswers p m).all (fun r => !r.isFailure) = true := by
  unfold inputAnswers
  split
  · next haccepted =>
    obtain ⟨i, hdec, hok⟩ := h haccepted
    rw [List.all_cons, isFailure_requestAnswer hdec hok]
    rfl
  · rfl

/-- Settles O51: the head of the inputs, if it is accepted, decodes to a command that the table lets succeed. -/
theorem stepKeepsASoundRun : Obligations.StepKeepsASoundRun := by
  intro s t ⟨hfree, hsound⟩ hstep
  rcases step_cases hstep with ⟨-, rfl⟩ | ⟨p, rest, hin, rfl⟩
  case inl => exact ⟨hfree, hsound⟩
  case inr =>
    rw [hin] at hsound
    refine ⟨?record, fun p' hp' => hsound p' (List.mem_cons_of_mem _ ?_)⟩
    case record =>
      rw [State.failureFree, afterInput_responses, List.all_append, inputAnswers_failureFree (hsound p List.mem_cons_self),
        Bool.and_true]
      exact hfree
    · rwa [afterInput_inputs] at hp'

/-- Settles O52: after reset both lists are empty. -/
theorem resetIsASoundRun : Obligations.ResetIsASoundRun := ⟨rfl, nofun⟩

/-- Settles O48: every step of a sound run keeps it sound (O51). -/
theorem runsOfSoundRequestsAreFailureFree : Obligations.RunsOfSoundRequestsAreFailureFree := by
  intro s hfree hsound
  obtain ⟨t, hrun, -, hend, -⟩ := runAll_of_invariant stepKeepsASoundRun ⟨hfree, hsound⟩
  exact ⟨t, hrun, hend⟩

/-- A relation between stores under which every presentation is answered alike and which every presentation keeps. -/
def Indistinguishable (R : Memory → Memory → Prop) : Prop :=
  ∀ (p : PortIn) (m₁ m₂ : Memory), R m₁ m₂ →
    inputAnswers p m₁ = inputAnswers p m₂ ∧ R (inputStore p m₁) (inputStore p m₂)

/-- Runs of the same inputs from such stores add the same responses and end in such stores. -/
theorem runAll_of_indistinguishable {R : Memory → Memory → Prop} (hR : Indistinguishable R) :
    ∀ {s₁ s₂ : State}, s₁.inputs = s₂.inputs → R s₁.mem s₂.mem →
      ∃ (t₁ t₂ : State) (answers : List Response), s₁.runAll = .next t₁ ∧ s₂.runAll = .next t₂ ∧
        t₁.responses = s₁.responses ++ answers ∧ t₂.responses = s₂.responses ++ answers ∧ R t₁.mem t₂.mem := by
  intro s₁ s₂
  induction hin : s₁.inputs generalizing s₁ s₂ with
  | nil =>
    intro hin₂ hmem
    exact ⟨s₁, s₂, [], runAll_nil hin, runAll_nil hin₂.symm, by simp, by simp, hmem⟩
  | cons p rest ih =>
    intro hin₂ hmem
    obtain ⟨hanswers, hstore⟩ := hR p _ _ hmem
    obtain ⟨t₁, t₂, answers, hrun₁, hrun₂, hrecord₁, hrecord₂, hend⟩ :=
      ih (s₁ := afterInput p { s₁ with inputs := rest }) (s₂ := afterInput p { s₂ with inputs := rest })
        (afterInput_inputs ..) (afterInput_inputs p { s₂ with inputs := rest }).symm (by simpa using hstore)
    refine ⟨t₁, t₂, inputAnswers p s₁.mem ++ answers, (runAll_cons hin).trans hrun₁, (runAll_cons hin₂.symm).trans hrun₂,
      ?_, ?_, hend⟩
    · rw [hrecord₁, afterInput_responses, List.append_assoc]
    · rw [hrecord₂, afterInput_responses, hanswers, List.append_assoc]

/-- Settles O49: no presentation tells stores apart whose cells agree. -/
theorem runsDependOnTheCellsAlone : Obligations.RunsDependOnTheCellsAlone := by
  have hcells : Indistinguishable CellsAgree := fun p _ _ h => ⟨inputAnswers_eq_of_cellsAgree p h, cellsAgree_inputStore p h⟩
  exact fun _ _ hin hmem => runAll_of_indistinguishable hcells hin hmem

/-- Settles O50: `rst` is answered by nothing and leaves both runs the empty store, from which they are alike. -/
theorem resetForgetsTheStore : Obligations.ResetForgetsTheStore := by
  intro s₁ s₂ p rest hin₁ hin₂ hrst
  have hequal : Indistinguishable Eq := fun p m₁ m₂ h => by
    subst h
    exact ⟨rfl, rfl⟩
  have hafter : ∀ s : State, afterInput p s = s.resetBlock := fun s => if_pos hrst
  rw [runAll_cons hin₁, runAll_cons hin₂, hafter, hafter]
  exact runAll_of_indistinguishable hequal rfl rfl

end Sys2Proof.Machine

/-! ## Writes read back: round trips, overlapping writes and registers that share cells (R34, R35, R123 to R129, R152 to R154) -/

namespace Sys2Proof

theorem decode_wrW_word (p v : Bus) : decode ⟨0x4100, p, v⟩ = .command (.wrW p v) := rfl

end Sys2Proof

namespace Sys2Proof.Machine

theorem exec_wrW_out_of_store {p : Bus} (hp : ¬ p.toNat ≤ 4094) (v : Bus) (s : State) :
    exec (.wrW p v) s = .next { s with responses := s.responses ++ [.fail .outOfBounds] } :=
  exec_of_store_kept (if_neg hp) (if_neg hp)

/-- Settles O20: inside the store the step is `writeAt`, whose cells the laws of a Word store give, the obligation writing
`highByte` and `lowByte` out; outside it the store is kept. -/
theorem writeWordStoresBothBytes : Obligations.WriteWordStoresBothBytes := by
  refine ⟨decode_wrW_word, fun s p v hp => ?in_store, fun s p v hp => exec_wrW_out_of_store (Nat.not_le.mpr hp) v s⟩
  case in_store =>
    exact ⟨_, exec_wrW_in_store hp v s, read_store_word_high .., read_store_word_low ..,
      fun a hhigh hlow => read_store_word_other s.mem v hhigh hlow, writeAt_inputs .., writeAt_responses ..⟩

/-- The low `n` bits of a bus, widened again, are the bus exactly where its signed value is its own remainder modulo `2 ^ n`,
taken in the signed range (R8). -/
theorem signExtend_low_eq_iff {n : Nat} (hn : n ≤ 32) (v : Bus) :
    (v.extractLsb' 0 n).signExtend 32 = v ↔ v.toInt.bmod (2 ^ n) = v.toInt := by
  have hbmod : v.toInt.bmod (2 ^ n) = (v.toNat : Int).bmod (2 ^ n) := by
    rw [BitVec.toInt_eq_toNat_bmod, Int.bmod_bmod_of_dvd (pow_dvd_pow 2 hn)]
  rw [← BitVec.toInt_inj, BitVec.toInt_signExtend_of_le hn, BitVec.toInt_extractLsb', Nat.shiftRight_zero, hbmod]

theorem bmod_eq_self_iff {n : Nat} (hn : 0 < n) (x : Int) : x.bmod n = x ↔ -(n / 2 : Int) ≤ x ∧ x < ((n : Int) + 1) / 2 := by
  constructor
  · intro h
    rw [← h]
    exact ⟨Int.le_bmod hn, Int.bmod_lt hn⟩
  · rintro ⟨hlow, hhigh⟩
    exact Int.bmod_eq_of_le hlow hhigh

/-- Settles O36: the cell holds `lowByte v`, and 8 bits hold -128..127. -/
theorem byteRoundTrip : Obligations.ByteRoundTrip := by
  intro s p v hp
  refine ⟨⟨_, exec_wrB_in_store hp v s, exec_rdB_of_read hp (read_store_byte_same ..)⟩, ?range⟩
  case range =>
    rw [signExtend_low_eq_iff (by decide), bmod_eq_self_iff (by decide)]
    omega

/-- The two bytes of a Word store, side by side, are the low 16 bits of the bus (R8, R55). -/
theorem highByte_append_lowByte (v : Bus) : highByte v ++ lowByte v = v.extractLsb' 0 16 := by
  apply BitVec.eq_of_getLsbD_eq
  intro i hi
  simp only [highByte, lowByte, BitVec.getLsbD_append, BitVec.getLsbD_extractLsb']
  split
  · simp [*]
  · simp [show i - 8 < 8 by omega, show 8 + (i - 8) = i by omega, hi]

/-- Settles O37: the two cells hold the low 16 bits of `v`, and these hold -32768..32767. -/
theorem wordRoundTrip : Obligations.WordRoundTrip := by
  intro s p v hp
  refine ⟨⟨_, exec_wrW_in_store hp v s, ?read⟩, ?range⟩
  case read =>
    rw [← highByte_append_lowByte]
    exact exec_rdW_of_read hp (read_store_word_high ..) (read_store_word_low ..)
  case range =>
    rw [signExtend_low_eq_iff (by decide), bmod_eq_self_iff (by decide)]
    omega

/-- R129: of two Word writes at neighbouring positions the later has the cell between. -/
theorem cells_after_overlapping_word_writes (s : State) {p : Bus} (v u : Bus) (hp : p.toNat ≤ 4093) :
    ∃ t₁ t₂, exec (.wrW p v) s = .next t₁ ∧ exec (.wrW (p + 1) u) t₁ = .next t₂ ∧
      t₂.mem.read p.toNat = highByte v ∧ t₂.mem.read (p.toNat + 1) = highByte u ∧
      t₂.mem.read (p.toNat + 2) = lowByte u := by
  have hnext : (p + 1).toNat = p.toNat + 1 := toNat_add_one_of_le (by omega)
  refine ⟨_, _, exec_wrW_in_store (by omega) v s, exec_wrW_in_store (by omega) u _, ?first, ?shared, ?last⟩
  all_goals rw [writeAt_mem, hnext]
  case first => rw [read_store_word_other _ _ (by omega) (by omega), writeAt_mem, read_store_word_high]
  case shared => rw [read_store_word_high]
  case last => rw [read_store_word_low]

/-- R129: a Byte write over the low byte of a Word leaves the high byte. -/
theorem word_read_after_low_byte_write (s : State) {p : Bus} (v b : Bus) (hp : p.toNat ≤ 4094) :
    ∃ t₁ t₂, exec (.wrW p v) s = .next t₁ ∧ exec (.wrB (p + 1) b) t₁ = .next t₂ ∧
      exec (.rdW p) t₂ = .next { t₂ with responses := t₂.responses ++ [.ok ((highByte v ++ lowByte b).signExtend 32)] } := by
  have hnext := toNat_add_one_of_le hp
  refine ⟨_, _, exec_wrW_in_store hp v s, exec_wrB_in_store (by omega) b _, exec_rdW_of_read hp ?high ?low⟩
  case high => rw [writeAt_mem, hnext, read_store_byte_other _ _ (by omega), writeAt_mem, read_store_word_high]
  case low => rw [writeAt_mem, hnext, read_store_byte_same]

/-- Settles O39: one lemma for each law, the obligation writing `highByte` and `lowByte` out. -/
theorem laterWriteWinsOnTheSharedCell : Obligations.LaterWriteWinsOnTheSharedCell :=
  ⟨fun s _ v u hp => cells_after_overlapping_word_writes s v u hp, fun s _ v b hp => word_read_after_low_byte_write s v b hp⟩

/-! Registers are views of the store, so a register access is a raw access at the view. -/

theorem sizeOfReg_word {r : RegCode} (h : 8 ≤ r.toNat ∧ r.toNat ≤ 11) : sizeOfReg r = .word := if_pos h

theorem sizeOfReg_byte {r : RegCode} (h : ¬ (8 ≤ r.toNat ∧ r.toNat ≤ 11)) : sizeOfReg r = .byte := if_neg h

/-- RDREG is the shared read at the looked-up address with the classifier's size (R12, R150). -/
theorem exec_rdreg_of_view {r : RegCode} {a : Nat} (ha : addrOf r = some a) (s : State) :
    exec (.rdreg r) s = .next (s.readAt a (sizeOfReg r)) :=
  exec_of_store_kept rfl (answer_rdreg_of_view ha s.mem)

theorem exec_rdreg_of_read_byte {s : State} {r : RegCode} {a : Nat} {b : Byte} (ha : addrOf r = some a)
    (hsize : sizeOfReg r = .byte) (hb : s.mem.read a = b) :
    exec (.rdreg r) s = .next { s with responses := s.responses ++ [.ok (b.signExtend 32)] } := by
  subst hb
  rw [exec_rdreg_of_view ha, hsize]
  rfl

theorem exec_rdreg_of_read_word {s : State} {r : RegCode} {a : Nat} {h l : Byte} (ha : addrOf r = some a)
    (hsize : sizeOfReg r = .word) (hh : s.mem.read a = h) (hl : s.mem.read (a + 1) = l) :
    exec (.rdreg r) s = .next { s with responses := s.responses ++ [.ok ((h ++ l).signExtend 32)] } := by
  subst hh hl
  rw [exec_rdreg_of_view ha, hsize]
  rfl

theorem exec_rdB_in_store {p : Bus} (hp : p.toNat ≤ 4095) (s : State) :
    exec (.rdB p) s = .next (s.readAt p.toNat .byte) := exec_rdB_of_read hp rfl

theorem exec_rdW_in_store {p : Bus} (hp : p.toNat ≤ 4094) (s : State) :
    exec (.rdW p) s = .next (s.readAt p.toNat .word) := exec_rdW_of_read hp rfl rfl

/-- Settles O40: both sides are the shared access at the literal offset with the classifier's size. -/
theorem registerAccessIsTheComposition : Obligations.RegisterAccessIsTheComposition := by
  refine ⟨fun s r hr => ?register, fun s r v hr => ?no_register⟩
  case register =>
    have hview := addrOf_eq_literalOffset hr
    have hoffset := literalOffset_le hr
    have htoNat : (BitVec.ofNat 32 (literalOffset r)).toNat = literalOffset r := Nat.mod_eq_of_lt (by omega)
    refine ⟨BitVec.ofNat 32 (literalOffset r), sizeTag (sizeOfReg r), ?_, rfl, ?_⟩
    · rw [exec_addrof, answer_addrof_of_register hr]
    · cases hsize : sizeOfReg r with
      | byte =>
        refine .inl ⟨rfl, ?_, fun v => ?_⟩
        · rw [exec_rdreg_of_view hview, exec_rdB_in_store (by omega), htoNat, hsize]
        · rw [exec_wrreg_of_view hview, exec_wrB_in_store (by omega), htoNat, hsize]
      | word =>
        refine .inr ⟨rfl, ?_, fun v => ?_⟩
        · rw [exec_rdreg_of_view hview, exec_rdW_in_store (by omega), htoNat, hsize]
        · rw [exec_wrreg_of_view hview, exec_wrW_in_store (by omega), htoNat, hsize]
  case no_register =>
    have hread := exec_of_store_kept (s := s) rfl (answer_rdreg_of_no_register hr s.mem)
    rw [exec_addrof, answer_addrof_of_no_register hr]
    exact ⟨hread, exec_wrreg_of_no_register hr v s⟩

theorem nbytes_byte : nbytes .byte = 1 := rfl

theorem nbytes_word : nbytes .word = 2 := rfl

/-- A load beside a store answers as before it. -/
theorem load_store_of_disjoint (m : Memory) {p q : Nat} {sz sz' : Size} (v : Bus)
    (h : q + nbytes sz' ≤ p ∨ p + nbytes sz ≤ q) : (m.store p sz v).load q sz' = m.load q sz' := by
  have hcell : ∀ a, q ≤ a → a < q + nbytes sz' → (m.store p sz v).read a = m.read a := by
    intro a hqa haq
    cases sz with
    | byte =>
      rw [nbytes_byte] at h
      exact read_store_byte_other m v (by omega)
    | word =>
      rw [nbytes_word] at h
      exact read_store_word_other m v (by omega) (by omega)
  cases sz' with
  | byte => rw [Memory.load, Memory.load, hcell q (Nat.le_refl q) (Nat.lt_succ_self q)]
  | word =>
    have hfirst : q < q + nbytes .word := Nat.lt_add_of_pos_right Nat.two_pos
    rw [Memory.load, Memory.load, hcell q (Nat.le_refl q) hfirst, hcell (q + 1) (Nat.le_succ q) (Nat.lt_succ_self (q + 1))]

/-- The literal table's views are disjoint, except a 16-bit register's and that of the 32-bit register of its letter (R34). -/
theorem views_disjoint : ∀ {r₁ r₂ : RegCode}, r₁.toNat ≤ 17 → r₂.toNat ≤ 17 → r₁ ≠ r₂ →
    ¬ (8 ≤ r₁.toNat ∧ r₁.toNat ≤ 11 ∧ r₂.toNat = r₁.toNat + 4) → ¬ (8 ≤ r₂.toNat ∧ r₂.toNat ≤ 11 ∧ r₁.toNat = r₂.toNat + 4) →
    literalOffset r₂ + nbytes (sizeOfReg r₂) ≤ literalOffset r₁ ∨
      literalOffset r₁ + nbytes (sizeOfReg r₁) ≤ literalOffset r₂ := by
  decide

/-- Settles O34: the store of the first register's view is beside the load of the second's. -/
theorem unaliasedRegistersKeepTheirValue : Obligations.UnaliasedRegistersKeepTheirValue := by
  intro s r₁ r₂ v hr₁ hr₂ hne hletter₁ hletter₂
  have hview := addrOf_eq_literalOffset hr₂
  refine ⟨_, _, exec_wrreg_of_view (addrOf_eq_literalOffset hr₁) v s, exec_rdreg_of_view hview s, ?_⟩
  rw [exec_rdreg_of_view hview, State.readAt, writeAt_mem,
    load_store_of_disjoint _ _ (views_disjoint hr₁ hr₂ hne hletter₁ hletter₂)]
  rfl

/-- `AX` and `EAX` start at one cell, and so do the other three letters' (R27, R34). -/
theorem literalOffset_of_letter : ∀ {w e : RegCode}, 8 ≤ w.toNat → w.toNat ≤ 11 → e.toNat = w.toNat + 4 →
    literalOffset e = literalOffset w := by
  decide

/-- Settles O35: both views begin at one offset, which is the Word's high cell and the Byte's only one. -/
theorem wordRegisterSharesItsHighByte : Obligations.WordRegisterSharesItsHighByte := by
  intro s w e v hlow hhigh hletter
  have hw := addrOf_eq_literalOffset (r := w) (by omega)
  have he := addrOf_eq_literalOffset (r := e) (by omega)
  rw [literalOffset_of_letter hlow hhigh hletter] at he
  have hword : sizeOfReg w = .word := sizeOfReg_word ⟨hlow, hhigh⟩
  have hbyte : sizeOfReg e = .byte := sizeOfReg_byte (by omega)
  refine ⟨⟨_, exec_wrreg_of_view hw v s, exec_rdreg_of_read_byte he hbyte ?shared⟩,
    ⟨_, exec_wrreg_of_view he v s, exec_rdreg_of_read_word hw hword ?high ?low⟩⟩
  case shared =>
    rw [writeAt_mem, hword]
    exact read_store_word_high ..
  case high =>
    rw [writeAt_mem, hbyte]
    exact read_store_byte_same ..
  case low =>
    rw [writeAt_mem, hbyte]
    exact read_store_byte_other _ _ (Nat.succ_ne_self _)

/-- A Word write at `p` is read back in halves by one-cell registers at `p` and `p + 1`. -/
theorem register_reads_after_word_write (s : State) (v : Bus) {p : Bus} {h l : RegCode} (hp : p.toNat ≤ 4094)
    (hh : addrOf h = some p.toNat ∧ sizeOfReg h = .byte) (hl : addrOf l = some (p.toNat + 1) ∧ sizeOfReg l = .byte) :
    ∃ t, exec (.wrW p v) s = .next t ∧
      exec (.rdreg h) t = .next { t with responses := t.responses ++ [.ok ((highByte v).signExtend 32)] } ∧
      exec (.rdreg l) t = .next { t with responses := t.responses ++ [.ok ((lowByte v).signExtend 32)] } :=
  ⟨_, exec_wrW_in_store hp v s, exec_rdreg_of_read_byte hh.1 hh.2 (read_store_word_high ..),
    exec_rdreg_of_read_byte hl.1 hl.2 (read_store_word_low ..)⟩

/-- Settles O41: AH AL, BH BL, CH CL and DH DL are pairs of neighbouring cells, high name first. -/
theorem rawWordReachesHighAndLowNames : Obligations.RawWordReachesHighAndLowNames := by
  intro s v
  simp only [List.forall_mem_cons]
  refine ⟨?ahAl, ?bhBl, ?chCl, ?dhDl, nofun⟩
  case ahAl | bhBl | chCl | dhDl => exact register_reads_after_word_write s v (by decide) ⟨rfl, rfl⟩ ⟨rfl, rfl⟩

/-- Settles O42: the write covers cells 0 and 1; AL is cell 3, and EAX is cell 0. -/
theorem literalAliasingTest : Obligations.LiteralAliasingTest := by
  intro s
  have hhigh : (s.writeAt 0 .word 0x1234).mem.read 0 = 0x12 := read_store_word_high s.mem 0 0x1234
  have hlow : (s.writeAt 0 .word 0x1234).mem.read 1 = 0x34 := read_store_word_low s.mem 0 0x1234
  have hal : (s.writeAt 0 .word 0x1234).mem.read 3 = s.mem.read 3 :=
    read_store_word_other s.mem 0x1234 (p := 0) (by decide) (by decide)
  exact ⟨_, exec_wrW_in_store (by decide) 0x1234 s, exec_rdB_of_read (p := 3) (by decide) hal,
    exec_rdreg_of_read_byte (a := 3) rfl rfl hal, exec_rdreg_of_read_byte (a := 0) rfl rfl hhigh,
    exec_rdB_of_read (p := 0) (by decide) hhigh, exec_rdB_of_read (p := 1) (by decide) hlow⟩

end Sys2Proof.Machine
